-- ==== Sys2Proof/Word.lean ====
section
/-! DEFINITION. The word types of the bit_stream_buffer core (00_scope.md R12: every value is unsigned). -/

namespace Sys2Proof

/-- A byte of `BUF`, `TXT` or `SEG`, a character code unit, and the field `IMM8` (u8). -/
abbrev Byte := BitVec 8

/-- A command word (30_encoding.md R100). -/
abbrev CommandWord := BitVec 32

/-- A host register on the port: 64 bits wide (10_state.md R32). -/
abbrev RegWord := BitVec 64

end Sys2Proof
end

