-- ==== Sys2Proof/Syntax.lean ====
section
/-! DEFINITION. The 17 commands as terms, their mnemonics and formats, and the assembler's line before it is checked. -/

namespace Sys2Proof

/-- One command of the opcode map (30_encoding.md R105). A format I command carries its `IMM8`; formats N and A
carry nothing (the 64-bit operand of format A is `REG.ARG`, R102). -/
inductive Instr where
  /-- create a stream with its own buffer (R140) -/
  | bsnew
  /-- create a stream over the host's bytes (R141) -/
  | bsview
  /-- `capacity()` (R143) -/
  | bscap
  /-- `count()` (R144) -/
  | bscount
  /-- append the low 1 bit of `v` (R153) -/
  | wr1 (v : Byte)
  /-- append the low 2 bits of `v` (R154) -/
  | wr2 (v : Byte)
  /-- append the low 4 bits of `v` (R155) -/
  | wr4 (v : Byte)
  /-- append the 8 bits of `v` (R156) -/
  | wr8 (v : Byte)
  /-- look one character up in the alphanumeric ROM (R181) -/
  | anlookup (c : Byte)
  /-- decimal digit count of `ARG` (R191) -/
  | digits
  /-- segment from a number (R212) -/
  | segnum
  /-- segment from alphanumeric text (R216) -/
  | segalnum
  /-- segment from arbitrary text (R220) -/
  | segtext
  /-- `dataBits()` (R225) -/
  | segdatabits
  /-- `lengthBits(version)` (R229) -/
  | seglenbits (v : Byte)
  /-- `encode(version, stream)` (R235) -/
  | segencode (v : Byte)
  /-- the payload encoder alone (R236) -/
  | segpayload
  deriving DecidableEq, Repr

/-- The three formats of 30_encoding.md R102. -/
inductive Format where
  /-- no operand -/
  | n
  /-- immediate operand `IMM8` -/
  | i
  /-- 64-bit operand in `REG.ARG` -/
  | a
  deriving DecidableEq, Repr

/-- The command a row of the opcode map selects, without its immediate. -/
inductive Op where
  | bsnew | bsview | bscap | bscount
  | wr1 | wr2 | wr4 | wr8
  | anlookup | digits
  | segnum | segalnum | segtext | segdatabits | seglenbits | segencode | segpayload
  deriving DecidableEq, Repr

/-- The row of the opcode map a command belongs to. -/
def Instr.op : Instr → Op
  | .bsnew => .bsnew
  | .bsview => .bsview
  | .bscap => .bscap
  | .bscount => .bscount
  | .wr1 _ => .wr1
  | .wr2 _ => .wr2
  | .wr4 _ => .wr4
  | .wr8 _ => .wr8
  | .anlookup _ => .anlookup
  | .digits => .digits
  | .segnum => .segnum
  | .segalnum => .segalnum
  | .segtext => .segtext
  | .segdatabits => .segdatabits
  | .seglenbits _ => .seglenbits
  | .segencode _ => .segencode
  | .segpayload => .segpayload

/-- The `IMM8` field of a command: its immediate in format I, 0 in formats N and A (30_encoding.md R102). -/
def Instr.imm8 : Instr → Byte
  | .wr1 v | .wr2 v | .wr4 v | .wr8 v => v
  | .anlookup c => c
  | .seglenbits v | .segencode v => v
  | .bsnew | .bsview | .bscap | .bscount | .digits | .segnum | .segalnum | .segtext | .segdatabits | .segpayload => 0

/-- The command of a row with the given `IMM8`; formats N and A have no use for it. -/
def Op.instr : Op → Byte → Instr
  | .bsnew, _ => .bsnew
  | .bsview, _ => .bsview
  | .bscap, _ => .bscap
  | .bscount, _ => .bscount
  | .wr1, v => .wr1 v
  | .wr2, v => .wr2 v
  | .wr4, v => .wr4 v
  | .wr8, v => .wr8 v
  | .anlookup, v => .anlookup v
  | .digits, _ => .digits
  | .segnum, _ => .segnum
  | .segalnum, _ => .segalnum
  | .segtext, _ => .segtext
  | .segdatabits, _ => .segdatabits
  | .seglenbits, v => .seglenbits v
  | .segencode, v => .segencode v
  | .segpayload, _ => .segpayload

/-- The format column of 30_encoding.md R105. -/
def Op.format : Op → Format
  | .bsnew | .bsview | .digits | .segnum | .segalnum | .segtext => .a
  | .bscap | .bscount | .segdatabits | .segpayload => .n
  | .wr1 | .wr2 | .wr4 | .wr8 | .anlookup | .seglenbits | .segencode => .i

/-- The mnemonic column of 30_encoding.md R105. -/
def Op.mnemonic : Op → String
  | .bsnew => "BSNEW"
  | .bsview => "BSVIEW"
  | .bscap => "BSCAP"
  | .bscount => "BSCOUNT"
  | .wr1 => "WR1"
  | .wr2 => "WR2"
  | .wr4 => "WR4"
  | .wr8 => "WR8"
  | .anlookup => "ANLOOKUP"
  | .digits => "DIGITS"
  | .segnum => "SEGNUM"
  | .segalnum => "SEGALNUM"
  | .segtext => "SEGTEXT"
  | .segdatabits => "SEGDATABITS"
  | .seglenbits => "SEGLENBITS"
  | .segencode => "SEGENCODE"
  | .segpayload => "SEGPAYLOAD"

/-- Every row, in the order of the opcode map. -/
def Op.all : List Op :=
  [.bsnew, .bsview, .bscap, .bscount, .wr1, .wr2, .wr4, .wr8, .anlookup, .digits] ++
    [.segnum, .segalnum, .segtext, .segdatabits, .seglenbits, .segencode, .segpayload]

/-- A command as the assembler's user writes it, before any check: a mnemonic and perhaps one number
(30_encoding.md R109). -/
structure AsmLine where
  mnemonic : String
  operand : Option Nat
  deriving DecidableEq, Repr

end Sys2Proof
end

