-- ==== Sys2Proof/WellFormed.lean ====
section
/-! DEFINITION. When a written command is one: the checks of 30_encoding.md R109 (known mnemonic, an operand exactly in
format I, no immediate above 255). A term of `Instr` carries its immediate as a `Byte`, so it passes by construction. -/

namespace Sys2Proof

/-- The row a mnemonic names, if any. -/
def Op.named (m : String) : Option Op := Op.all.find? fun o => o.mnemonic == m

/-- Check 1: the mnemonic is one of the 17 (R105). -/
def AsmLine.mnemonicKnown (l : AsmLine) : Bool := (Op.named l.mnemonic).isSome

/-- Check 2: format I has an operand, formats N and A have none (R109). -/
def AsmLine.operandMatchesFormat (l : AsmLine) : Bool :=
  match Op.named l.mnemonic with
  | some o => (o.format == .i) == l.operand.isSome
  | none => true

/-- Check 3: "An `imm` above 255 is an assembly error." (R109) -/
def AsmLine.operandFits (l : AsmLine) : Bool :=
  match l.operand with
  | some v => v ≤ 255
  | none => true

/-- A written command that assembles. -/
def AsmLine.wellFormed (l : AsmLine) : Bool := l.mnemonicKnown && l.operandMatchesFormat && l.operandFits

/-- A command written out. -/
def Instr.toAsm (i : Instr) : AsmLine :=
  { mnemonic := i.op.mnemonic, operand := if i.op.format = .i then some i.imm8.toNat else none }

/-- A command is well formed when the line that writes it is. -/
def Instr.wellFormed (i : Instr) : Bool := i.toAsm.wellFormed

end Sys2Proof
end

