-- ==== Sys2Proof/Decode.lean ====
section
/-! DEFINITION. The opcode map, the decoder of 32-bit command words (total, illegal words named) and the encoder
(30_encoding.md R100 to R107). -/

namespace Sys2Proof

/-- `OPC`, bits [31:24] (R101). -/
def opcField (w : CommandWord) : Byte := w.extractLsb' 24 8

/-- `RSV`, bits [23:8] (R101). -/
def rsvField (w : CommandWord) : BitVec 16 := w.extractLsb' 8 16

/-- `IMM8`, bits [7:0] (R101). -/
def imm8Field (w : CommandWord) : Byte := w.extractLsb' 0 8

/-- A row of the opcode map: a word `w` selects it when `w & mask = pattern` (R105). -/
structure OpRow where
  op : Op
  pattern : CommandWord
  mask : CommandWord
  deriving DecidableEq, Repr

/-- The opcode map of 30_encoding.md R105, row for row. -/
def opcodeMap : List OpRow :=
  [⟨.bsnew, 0x01000000, 0xFFFFFFFF⟩,
   ⟨.bsview, 0x02000000, 0xFFFFFFFF⟩,
   ⟨.bscap, 0x03000000, 0xFFFFFFFF⟩,
   ⟨.bscount, 0x04000000, 0xFFFFFFFF⟩,
   ⟨.wr1, 0x10000000, 0xFFFFFF00⟩,
   ⟨.wr2, 0x11000000, 0xFFFFFF00⟩,
   ⟨.wr4, 0x12000000, 0xFFFFFF00⟩,
   ⟨.wr8, 0x13000000, 0xFFFFFF00⟩,
   ⟨.anlookup, 0x20000000, 0xFFFFFF00⟩] ++
  [⟨.digits, 0x21000000, 0xFFFFFFFF⟩,
   ⟨.segnum, 0x30000000, 0xFFFFFFFF⟩,
   ⟨.segalnum, 0x31000000, 0xFFFFFFFF⟩,
   ⟨.segtext, 0x32000000, 0xFFFFFFFF⟩,
   ⟨.segdatabits, 0x38000000, 0xFFFFFFFF⟩,
   ⟨.seglenbits, 0x39000000, 0xFFFFFF00⟩,
   ⟨.segencode, 0x3A000000, 0xFFFFFF00⟩,
   ⟨.segpayload, 0x3B000000, 0xFFFFFFFF⟩]

/-- "a word `w` selects the row when `w & mask = match`" (R105). -/
def OpRow.selects (r : OpRow) (w : CommandWord) : Bool := w &&& r.mask == r.pattern

/-- Why a word is illegal: the three cases of R106. -/
inductive Illegal where
  /-- (a) `OPC` is not one of the 17 values -/
  | unassignedOpcode
  /-- (b) `RSV != 0` -/
  | reservedBits
  /-- (c) the format is N or A and `IMM8 != 0` -/
  | immediateNotAllowed
  deriving DecidableEq, Repr

/-- What the decoder answers: "every 32-bit value is either exactly one row of the opcode map or illegal" (R100). -/
inductive Decoded where
  | ok (i : Instr)
  | illegal (why : Illegal)
  deriving DecidableEq, Repr

/-- The name of an illegal word, by the cases of R106 in their order. -/
def whyIllegal (w : CommandWord) : Illegal :=
  if (opcodeMap.map fun r => opcField r.pattern).contains (opcField w) then
    if rsvField w = 0 then .immediateNotAllowed else .reservedBits
  else .unassignedOpcode

/-- The decoder (R100): the row that the word selects, with the word's `IMM8`. -/
def decode (w : CommandWord) : Decoded :=
  match opcodeMap.find? fun r => r.selects w with
  | some r => .ok (r.op.instr (imm8Field w))
  | none => .illegal (whyIllegal w)

/-- The opcode of a command (the `OPC` column of R105). -/
def Op.opc : Op → Byte
  | .bsnew => 0x01
  | .bsview => 0x02
  | .bscap => 0x03
  | .bscount => 0x04
  | .wr1 => 0x10
  | .wr2 => 0x11
  | .wr4 => 0x12
  | .wr8 => 0x13
  | .anlookup => 0x20
  | .digits => 0x21
  | .segnum => 0x30
  | .segalnum => 0x31
  | .segtext => 0x32
  | .segdatabits => 0x38
  | .seglenbits => 0x39
  | .segencode => 0x3A
  | .segpayload => 0x3B

/-- The command word of a command: `OPC`, `RSV = 0`, `IMM8` (R101, R102). -/
def encode (i : Instr) : CommandWord := i.op.opc ++ (0 : BitVec 16) ++ i.imm8

/-- The command an assembler line stands for, when it is well formed (R109). -/
def AsmLine.toInstr (l : AsmLine) : Option Instr :=
  if l.wellFormed then (Op.named l.mnemonic).map fun o => o.instr (BitVec.ofNat 8 (l.operand.getD 0)) else none

/-- The decoder on `nbits` bits numbered as the opcode table numbers them (bit 0 least significant). Every command is
one 32-bit word (R100), so a value that has a bit above bit 31 is no command. -/
def decodeTableWord (nbits w : Nat) : Option Instr :=
  let v := w % 2 ^ nbits
  if v < 2 ^ 32 then
    match decode (BitVec.ofNat 32 v) with
    | .ok i => some i
    | .illegal _ => none
  else none

end Sys2Proof
end

