-- ==== Sys2Proof/Config.lean ====
section
/-! DEFINITION. What an implementation fixes (00_scope.md R10) and the free values of the spec (93 U3, U11). An `opaque`
constant has no value that Lean can evaluate, so a theorem about it holds for every value it could have. -/

namespace Sys2Proof

/-- The three byte spaces (20_memory.md R70). -/
inductive Space where
  | buf | txt | seg
  deriving DecidableEq, Repr

/-- `INVALID_RUN_POLICY` (00_scope.md R10): one placeholder for each ill-formed byte, or for each maximal run. -/
inductive RunPolicy where
  | perByte | perRun
  deriving DecidableEq, Repr, Inhabited

/-- The named parameters of 00_scope.md R10. -/
structure Params where
  /-- `BUF_MAX` -/
  bufMax : Nat
  /-- `TXT_MAX` -/
  txtMax : Nat
  /-- `SEG_MAX` -/
  segMax : Nat
  /-- `PLACEHOLDER` -/
  placeholder : List Byte
  /-- `INVALID_RUN_POLICY` -/
  runPolicy : RunPolicy
  deriving DecidableEq, Repr

/-- The constraint column of 00_scope.md R10. -/
structure Params.Valid (p : Params) : Prop where
  bufMax_pos : 1 ≤ p.bufMax
  bufMax_lt : p.bufMax < 2 ^ 61
  txtMax_pos : 1 ≤ p.txtMax
  segMax_ge : 20 ≤ p.segMax
  placeholder_pos : 1 ≤ p.placeholder.length
  placeholder_le : p.placeholder.length ≤ 4

namespace Config

/-- Open values of an implementation; `params` maps them onto exactly the values R10 admits. DESIGN CHOICE, safe (log 1). -/
opaque rawBufMax : Nat
/-- See `rawBufMax`. -/
opaque rawTxtMax : Nat
/-- See `rawBufMax`. -/
opaque rawSegMax : Nat
/-- See `rawBufMax`: one less than the length of the placeholder, modulo 4. -/
opaque rawPlaceholderLength : Nat
/-- See `rawBufMax`: the bytes of the placeholder. -/
opaque rawPlaceholderByte : Nat → Byte
/-- See `rawBufMax`. -/
opaque rawRunPolicy : RunPolicy

/-- The parameters of this implementation: open, within the constraints of R10 (log 1). -/
def params : Params where
  bufMax := 1 + rawBufMax % (2 ^ 61 - 1)
  txtMax := 1 + rawTxtMax
  segMax := 20 + rawSegMax
  placeholder := (List.range (1 + rawPlaceholderLength % 4)).map rawPlaceholderByte
  runPolicy := rawRunPolicy

/-- The default `PLACEHOLDER`, U+FFFD in UTF-8 (00_scope.md R10, 93 U21). -/
def defaultPlaceholder : List Byte := [0xEF, 0xBF, 0xBD]

/-- The default `INVALID_RUN_POLICY` (00_scope.md R10). -/
def defaultRunPolicy : RunPolicy := .perByte

/-- FREE VALUE (93 U3 "any value"): what the host reads at an address of a space that nothing has written since the
reset of the given number. Safe (log 4). -/
opaque unwrittenByte : (resetCount : Nat) → Space → (address : Nat) → Byte

/-- FREE VALUE (93 U3 "any value"): what the host reads at `SEG[i]` with `i >= SEG_LEN`, for the segment of the given
number since the given reset. Safe (log 4). -/
opaque spareElement : (resetCount segCount address : Nat) → Byte

/-- FREE VALUE (93 U11 "any value"): `ARG` after a reset of the given number that arrived while the host wrote it.
Safe (log 7). -/
opaque interruptedArg : (resetCount : Nat) → RegWord

/-- FREE VALUE (93 U11 "any value"): a byte cell after a reset of the given number that arrived while the host wrote it.
Safe (log 7). -/
opaque interruptedByte : (resetCount : Nat) → Byte

/-- FREE VALUE: `zext_64` of a natural that does not fit 64 bits, on which the spec states nothing. Safe (log 6). -/
opaque wideValue : Nat → RegWord

end Config
end Sys2Proof
end

