-- ==== Sys2Proof/Machine/State.lean ====
section
/-! DEFINITION. The state of the core (10_state.md R30), the host accesses of its port, the reasons a step can stop, and
the state after reset (10_state.md R53). -/

namespace Sys2Proof.Machine

/-- A byte space as a list of written cells. Canonical form: addresses strictly rising (`Memory.wf`). An unlisted address
is one that nothing has written since reset; it holds no value the model knows (93 U3, log 3). -/
abbrev Memory := List Host.Cell

/-- The canonical form: addresses strictly rising. No listed cell can equal an unlisted one, which reads as no value. -/
abbrev Memory.wf (m : Memory) : Prop := m.Pairwise fun x y => x.1 < y.1

/-- The fatal causes of 60_exceptions.md R271, codes 1 to 5. -/
inductive FatalCause where
  /-- code 1: the bits do not fit the stream -/
  | capacityExceeded
  /-- code 2: a symbol version outside 1 to 40 -/
  | invalidVersion
  /-- code 3: there is no segment -/
  | unrecognizedMode
  /-- code 4: the command word is illegal -/
  | illegalCommand
  /-- code 5: a size exceeds the arrays -/
  | resourceLimit
  deriving DecidableEq, Repr

/-- The recoverable result codes of 10_state.md R37, values 0 to 2. -/
inductive ResultCode where
  /-- value 0 -/
  | ok
  /-- value 1, written only by `ANLOOKUP` -/
  | notFound
  /-- value 2, written only by `SEGALNUM` -/
  | invalidChar
  deriving DecidableEq, Repr

/-- The segment modes of 10_state.md R45, values 1 to 3; the value 0, `NONE`, is `none : Option Mode`. -/
inductive Mode where
  | numeric | alnum | byte
  deriving DecidableEq, Repr

/-- A write the host makes at the port (20_memory.md R70). -/
inductive HostWrite where
  /-- a register, by its index (10_state.md R32) -/
  | reg (index : Nat) (v : RegWord)
  /-- a byte cell of a space -/
  | cell (sp : Space) (a : Nat) (v : Byte)
  deriving DecidableEq, Repr

/-- An event the outside world causes: a host access, or reset (20_memory.md R80, 70_reset_and_hazards.md R300, R301). -/
inductive HostAccess where
  | write (w : HostWrite)
  | readReg (index : Nat)
  | readCell (sp : Space) (a : Nat)
  /-- the reset input is asserted between accesses -/
  | reset
  /-- the reset input is asserted while the host makes the write -/
  | resetDuring (w : HostWrite)
  deriving DecidableEq, Repr

/-- The state of the core, one field for each piece the spec names (INVENTORY.md, State), and four fields of the model's
own. -/
structure State where
  /-- `REG.ARG` (R34) -/
  arg : RegWord
  /-- `REG.RES` (R35) -/
  res : RegWord
  /-- `STATUS.FATAL` (R36, R50) -/
  fatal : Bool
  /-- `STATUS.FCAUSE` (R36); `none` is the value 0 -/
  fcause : Option FatalCause
  /-- `STATUS.RCODE` (R36, R37) -/
  rcode : ResultCode
  /-- `REG.FCMD` (R39) -/
  fcmd : CommandWord
  /-- `BS_LEN` (R40) -/
  bsLen : Nat
  /-- `BS_CUR` (R41) -/
  bsCur : Nat
  /-- `BS_REM` (R42) -/
  bsRem : Nat
  /-- `SEG_MODE` (R45); `none` is the value `NONE` -/
  segMode : Option Mode
  /-- `SEG_LEN` (R46) -/
  segLen : Nat
  /-- the space `BUF` (20_memory.md R70) -/
  buf : Memory
  /-- the space `TXT` (20_memory.md R70, R71) -/
  txt : Memory
  /-- the space `SEG` (R47) -/
  seg : Memory
  /-- MODEL'S OWN: the host accesses still to come, oldest first (20_memory.md R83, log 2) -/
  pending : List HostAccess
  /-- MODEL'S OWN: what the port last returned to the host (log 5) -/
  readData : RegWord
  /-- MODEL'S OWN: how many resets were taken, index of the free values of never-written cells (log 4) -/
  resetCount : Nat
  /-- MODEL'S OWN: how many times the segment was replaced, index of the free values beyond `SEG_LEN` (log 4) -/
  segCount : Nat
  deriving DecidableEq, Repr

/-- Why the model stops. A fatal error of the spec is NO fault of this type: it is a next state (60_exceptions.md R274). -/
inductive Fault where
  /-- `SEGALNUM` or `SEGTEXT` reads a `TXT` byte that nothing has written since reset (93 U3, 92 D45). Safe. -/
  | unwrittenTxt
  /-- A stream write ORs into a `BUF` byte that nothing has written since reset (93 U3, 92 D45). Raised by `WR1`, `WR2`,
  `WR4`, `WR8`, `SEGENCODE`, `SEGPAYLOAD`. Safe. -/
  | unwrittenBuf
  /-- `SEGENCODE` or `SEGPAYLOAD` reads an element of the segment that nothing has written. No state that a run reaches
  does so (10_state.md R48, log 9). Safe. -/
  | unwrittenSeg
  deriving DecidableEq, Repr

/-- Why the model gives an instruction no meaning. -/
inductive Refusal where
  /-- The command has no meaning yet. Raised by `exec` alone, and by no arm of this model. Safe. -/
  | notModelled (mnemonic : String)
  deriving DecidableEq, Repr

/-- The state after reset: 10_state.md R53. The four fields of the model's own are empty or 0 (DESIGN CHOICE, log 2, 4, 5). -/
def State.reset : State where
  arg := 0
  res := 0
  fatal := false
  fcause := none
  rcode := .ok
  fcmd := 0
  bsLen := 0
  bsCur := 0
  bsRem := 8
  segMode := none
  segLen := 0
  buf := []
  txt := []
  seg := []
  pending := []
  readData := 0
  resetCount := 0
  segCount := 0

end Sys2Proof.Machine
end

