-- ==== Sys2Proof/Machine/Flags.lean ====
section
/-! DEFINITION. The status register and the codes of its fields (10_state.md R36, R37, R45; 60_exceptions.md R271, R279). -/

namespace Sys2Proof.Machine

/-- The code of a fatal cause (60_exceptions.md R271). -/
def FatalCause.code : FatalCause → BitVec 4
  | .capacityExceeded => 1
  | .invalidVersion => 2
  | .unrecognizedMode => 3
  | .illegalCommand => 4
  | .resourceLimit => 5

/-- The field `FCAUSE`: "0 while `FATAL = 0`", a cause code after a fatal error (R36). -/
def fcauseField : Option FatalCause → BitVec 4
  | none => 0
  | some c => c.code

/-- The field `RCODE` (R37). -/
def ResultCode.code : ResultCode → BitVec 4
  | .ok => 0
  | .notFound => 1
  | .invalidChar => 2

/-- The register `SEG_MODE`, bits [1:0] (R45). -/
def modeField : Option Mode → BitVec 2
  | none => 0
  | some .numeric => 1
  | some .alnum => 2
  | some .byte => 3

/-- `STATUS` as the host reads it: `RCODE` in [11:8], `FCAUSE` in [7:4], 0 in [3:1], `FATAL` in [0], 0 above (R36). -/
def State.statusWord (s : State) : RegWord :=
  (0 : BitVec 52) ++ s.rcode.code ++ fcauseField s.fcause ++ (0 : BitVec 3) ++ BitVec.ofBool s.fatal

/-- The core is halted "exactly when `STATUS.FATAL = 1`" (R50). -/
def State.halted (s : State) : Bool := s.fatal

/-- The output `fatal_o`, equal to `STATUS.FATAL` (60_exceptions.md R279). -/
def State.fatalOut (s : State) : Bool := s.fatal

end Sys2Proof.Machine
end

