-- ==== Sys2Proof/Machine/Operands.lean ====
section
/-! DEFINITION. Operand forms: the low bits of an immediate, the 64-bit operand, `zext_64`, and the split of a field into
fixed-width writes (00_scope.md R13; 30_encoding.md R103, R104; 40_bitstream.md R158). -/

namespace Sys2Proof.Machine

/-- `mask(k) = 2^k - 1` as a byte (00_scope.md R13). -/
def mask (k : Nat) : Byte := BitVec.ofNat 8 (2 ^ k - 1)

/-- "the low N bits of `v`": `v & mask(N)` (40_bitstream.md R150). -/
def lowBits (n : Nat) (v : Byte) : Byte := v &&& mask n

/-- `zext_64` of a natural. Where the natural does not fit 64 bits the spec states no value: a free value (log 6). -/
def zext64 (v : Nat) : RegWord := if v < 2 ^ 64 then BitVec.ofNat 64 v else Config.wideValue v

/-- The format A operand: `REG.ARG` as an unsigned value (30_encoding.md R104). -/
def State.operand (s : State) : Nat := s.arg.toNat

/-- The command word in a value written to `REG.CMD`: `w[31:0]` (10_state.md R33). -/
def commandOf (v : RegWord) : CommandWord := v.extractLsb' 0 32

/-- `max { q in {8, 4, 2, 1} : q <= r }` (40_bitstream.md R158). -/
def widest (r : Nat) : Nat := if 8 ≤ r then 8 else if 4 ≤ r then 4 else if 2 ≤ r then 2 else 1

/-- The value of the chunk of width `p` that starts `r` bits from the end of `x`: `(x >> (r - p)) & mask(p)` (R158). -/
def chunkValue (x r p : Nat) : Byte := BitVec.ofNat 8 (x / 2 ^ (r - p) % 2 ^ p)

/-- The loop of `WRBITS` with `r` bits left: the width and value of each write, in order. The first argument bounds the
rounds; `r` rounds are enough. -/
def chunksFrom (x : Nat) : (rounds r : Nat) → List (Nat × Byte)
  | 0, _ => []
  | k + 1, r =>
    if r = 0 then [] else (widest r, chunkValue x r (widest r)) :: chunksFrom x k (r - widest r)

/-- The writes of `WRBITS(w, x)` (40_bitstream.md R158). -/
def chunks (w x : Nat) : List (Nat × Byte) := chunksFrom x w w

end Sys2Proof.Machine
end

