-- ==== Sys2Proof/Machine/Ops.lean ====
section
/-! DEFINITION. The named operations over memory and registers: byte spaces, register updates, taking a fatal error, and
how a command ends (00_scope.md R15; 20_memory.md R70; 60_exceptions.md R274, R275). -/

namespace Sys2Proof.Machine

/-! ## Byte spaces -/

/-- `MemRead(S, a, 1)` (00_scope.md R14); `none` for an address nothing has written since reset. -/
def Memory.read : Memory → Nat → Option Byte
  | [], _ => none
  | (k, b) :: m, a => if k = a then some b else Memory.read m a

/-- `MemWrite(S, a, 1, v)` (00_scope.md R14), which keeps the addresses rising. -/
def Memory.write : Memory → Nat → Byte → Memory
  | [], a, v => [(a, v)]
  | (k, b) :: m, a, v =>
    if a < k then (a, v) :: (k, b) :: m
    else if a = k then (a, v) :: m
    else (k, b) :: Memory.write m a v

/-- Write 0 to the addresses `0 .. n-1` (the loop of 40_bitstream.md R140). -/
def Memory.fillZero (m : Memory) : Nat → Memory
  | 0 => m
  | n + 1 => (m.fillZero n).write n 0

/-- Write the bytes at `a`, `a+1`, ... (the loops of 42_segment.md R212, R216, R220). -/
def Memory.store (m : Memory) (a : Nat) : List Byte → Memory
  | [] => m
  | b :: bs => Memory.store (m.write a b) (a + 1) bs

/-- Read `n` bytes from `a` on; `none` if one of them was never written. -/
def Memory.load (m : Memory) (a : Nat) : Nat → Option (List Byte)
  | 0 => some []
  | n + 1 =>
    match m.read a, Memory.load m (a + 1) n with
    | some b, some bs => some (b :: bs)
    | _, _ => none

/-! ## Register updates -/

/-- `STATUS.RCODE <- rc` (10_state.md R37). -/
def State.setRcode (s : State) (rc : ResultCode) : State := { s with rcode := rc }

/-- `REG.RES <- v` (10_state.md R35). -/
def State.setRes (s : State) (v : RegWord) : State := { s with res := v }

/-- `REG.ARG <- v` (10_state.md R34). -/
def State.setArg (s : State) (v : RegWord) : State := { s with arg := v }

/-- The bytes of `BUF`. -/
def State.setBuf (s : State) (m : Memory) : State := { s with buf := m }

/-- The bytes of `TXT`. -/
def State.setTxt (s : State) (m : Memory) : State := { s with txt := m }

/-- `BS_CUR <- cur ; BS_REM <- rem` (40_bitstream.md R150, R151). -/
def State.setCursor (s : State) (cur rem : Nat) : State := { s with bsCur := cur, bsRem := rem }

/-- `BS_LEN <- L ; BS_CUR <- 0 ; BS_REM <- 8`: a new stream replaces the old one (40_bitstream.md R142). -/
def State.openStream (s : State) (len : Nat) : State := { s with bsLen := len, bsCur := 0, bsRem := 8 }

/-- A new segment of the given elements replaces the old one (42_segment.md R210). -/
def State.setSegment (s : State) (m : Mode) (elems : List Byte) : State :=
  { s with segMode := some m, segLen := elems.length, seg := s.seg.store 0 elems, segCount := s.segCount + 1 }

/-- `SEG_MODE <- NONE ; SEG_LEN <- 0` (42_segment.md R216); the bytes of `SEG` are not written. -/
def State.dropSegment (s : State) : State := { s with segMode := none, segLen := 0, segCount := s.segCount + 1 }

/-- The accesses still to come (20_memory.md R83, log 2). -/
def State.setPending (s : State) (l : List HostAccess) : State := { s with pending := l }

/-- What the port answers the host (log 5). -/
def State.setReadData (s : State) (v : RegWord) : State := { s with readData := v }

/-! ## Fatal errors and the end of a command -/

/-- The fault entry of 60_exceptions.md R274, which every fatal error takes: `FATAL <- 1`, `FCAUSE <- code(CAUSE)`,
`FCMD <- w`, "and nothing else changes". There is no way back but reset (R277). -/
def State.takeFatal (s : State) (c : FatalCause) (w : CommandWord) : State :=
  { s with fatal := true, fcause := some c, fcmd := w }

/-- Reset (70_reset_and_hazards.md R300): every piece of state takes its value of 10_state.md R53. The accesses still to
come and the last answer are the host's and stay; the count of resets goes on (log 2, 4, 5). -/
def State.restart (s : State) : State :=
  { State.reset with pending := s.pending, readData := s.readData, resetCount := s.resetCount + 1 }

/-- Why a command does not complete: `raise Fatal(CAUSE)` of the pseudocode (00_scope.md R15), or an access the model
cannot follow (93 U3). -/
inductive Stop where
  | fatal (c : FatalCause)
  | unknown (f : Fault)
  deriving DecidableEq, Repr

/-- The pseudocode of a command: the state it leaves, or why it does not complete. -/
abbrev Effect := Except Stop State

/-- How a command with word `w` that started in `s` ends: its own next state; on a fatal error, the state BEFORE the
command with the fault entry, since "nothing else of the command takes effect" (00_scope.md R15, 60_exceptions.md R275). -/
def conclude (w : CommandWord) (s : State) : Effect → Host.Outcome State Fault Refusal
  | .ok t => .next t
  | .error (.fatal c) => .next (s.takeFatal c w)
  | .error (.unknown f) => .fault f

/-- `MemWrite(BUF, a, 1, MemRead(BUF, a, 1) | x)` (40_bitstream.md R150, R151); a byte that was never written stops the
model (93 U3, 92 D45, log 3). -/
def orByte (m : Memory) (a : Nat) (x : Byte) : Except Stop Memory :=
  match m.read a with
  | some b => .ok (m.write a (b ||| x))
  | none => .error (.unknown .unwrittenBuf)

/-- The elements `SEG[0 .. SEG_LEN-1]` as the encoders read them (20_memory.md R70). -/
def State.elements (s : State) : Except Stop (List Byte) :=
  match s.seg.load 0 s.segLen with
  | some es => .ok es
  | none => .error (.unknown .unwrittenSeg)

/-- The text `TXT[0 .. n-1]` (20_memory.md R71); a byte that was never written stops the model (93 U3, log 3). -/
def State.text (s : State) (n : Nat) : Except Stop (List Byte) :=
  match s.txt.load 0 n with
  | some t => .ok t
  | none => .error (.unknown .unwrittenTxt)

end Sys2Proof.Machine
end

