-- ==== Sys2Proof/Machine/Lookup.lean ====
section
/-! DEFINITION. The alphanumeric ROM and the digit counter: `ANLOOKUP`, `DIGITS` (41_lut_digits.md). -/

namespace Sys2Proof.Machine

/-- The ROM's 45 characters in the order of their codes, as ASCII bytes (41_lut_digits.md R180): `0`..`9`, `A`..`Z`,
space, `$`, `%`, `*`, `+`, `-`, `.`, `/`, `:`. Constant state (10_state.md R51). -/
def alphabet : List Byte :=
  [0x30, 0x31, 0x32, 0x33, 0x34, 0x35, 0x36, 0x37, 0x38, 0x39] ++
  [0x41, 0x42, 0x43, 0x44, 0x45, 0x46, 0x47, 0x48, 0x49, 0x4A, 0x4B, 0x4C, 0x4D] ++
  [0x4E, 0x4F, 0x50, 0x51, 0x52, 0x53, 0x54, 0x55, 0x56, 0x57, 0x58, 0x59, 0x5A] ++
  [0x20, 0x24, 0x25, 0x2A, 0x2B, 0x2D, 0x2E, 0x2F, 0x3A]

/-- The position of a byte in a list, counted from `i`. -/
def positionFrom (c : Byte) : Nat → List Byte → Option Nat
  | _, [] => none
  | i, b :: bs => if b = c then some i else positionFrom c (i + 1) bs

/-- `LUT(c)`: the code of the character, "its positional index 0–44", or `NotFound` (41_lut_digits.md R180). -/
def lut (c : Byte) : Option Nat := positionFrom c 0 alphabet

/-- The branch form of the lookup (41_lut_digits.md R182), on `c` as a natural. The hardware has one ROM; this form is the
document's "required test property". -/
def lutBranch (c : Byte) : Option Nat :=
  let n := c.toNat
  if 0x30 ≤ n ∧ n ≤ 0x39 then some (n - 0x30)
  else if 0x41 ≤ n ∧ n ≤ 0x5A then some (n - 0x41 + 10)
  else if n = 0x20 then some 36
  else if n = 0x24 then some 37
  else if n = 0x25 then some 38
  else if n = 0x2A then some 39
  else if n = 0x2B then some 40
  else if n = 0x2D then some 41
  else if n = 0x2E then some 42
  else if n = 0x2F then some 43
  else if n = 0x3A then some 44
  else none

/-- The loop of `digitCount` (41_lut_digits.md R190): `repeat n = n div 10 ; d = d + 1 until n == 0`. The first argument
bounds the rounds. -/
def digitLoop : (rounds n : Nat) → Nat
  | 0, _ => 0
  | k + 1, n => if n / 10 = 0 then 1 else digitLoop k (n / 10) + 1

/-- `digitCount(n)` for `n` below 2^64 (41_lut_digits.md R190), where 20 rounds are enough. -/
def digitCount (n : Nat) : Nat := digitLoop 20 n

/-- The comparator form, `1 + #{ k in 1..19 : n >= 10^k }` (41_lut_digits.md R192). Only R190 is normative. -/
def digitCountComparators (n : Nat) : Nat :=
  1 + ((List.range 19).filter fun k => 10 ^ (k + 1) ≤ n).length

/-- Digit `i` of `n`, most significant first: `(n div 10^(D-1-i)) mod 10` (42_segment.md R211). -/
def digit (n i : Nat) : Nat := n / 10 ^ (digitCount n - 1 - i) % 10

/-- `ANLOOKUP c` (41_lut_digits.md R181). -/
def anlookup (c : Byte) (s : State) : Effect :=
  match lut c with
  | some code => .ok ((s.setRes (zext64 code)).setRcode .ok)
  | none => .ok ((s.setRes 0xFFFFFFFFFFFFFFFF).setRcode .notFound)

/-- `DIGITS` (41_lut_digits.md R191). -/
def digits (s : State) : Effect := .ok ((s.setRes (zext64 (digitCount s.operand))).setRcode .ok)

/-- The command `ANLOOKUP` (R181). -/
def execAnlookup (c : Byte) (s : State) : Host.Outcome State Fault Refusal :=
  conclude (encode (.anlookup c)) s (anlookup c s)

/-- The command `DIGITS` (R191). -/
def execDigits (s : State) : Host.Outcome State Fault Refusal := conclude (encode .digits) s (digits s)

end Sys2Proof.Machine
end

