-- ==== Sys2Proof/Machine/Stream.lean ====
section
/-! DEFINITION. The bit_stream_buffer commands: `BSNEW`, `BSVIEW`, `BSCAP`, `BSCOUNT`, `WR1`, `WR2`, `WR4`, `WR8`, and the
sequence `WRBITS` (40_bitstream.md). -/

namespace Sys2Proof.Machine

/-- `capacity() = 8 * BS_LEN` (10_state.md R40). -/
def State.capacity (s : State) : Nat := 8 * s.bsLen

/-- `count() = 8*BS_CUR + (8 - BS_REM)` (10_state.md R44). -/
def State.count (s : State) : Nat := 8 * s.bsCur + (8 - s.bsRem)

/-- The `N` bits `u` go into the current byte, `N <= R` (40_bitstream.md R150). -/
def writeWithin (n : Nat) (u : Byte) (s : State) : Effect := do
  let buf ← orByte s.buf s.bsCur (u <<< (s.bsRem - n))
  let t := s.setBuf buf
  return if n = s.bsRem then t.setCursor (s.bsCur + 1) 8 else t.setCursor s.bsCur (s.bsRem - n)

/-- The `N` bits `u` are split over the current and the next byte, `N > R` (40_bitstream.md R151). -/
def writeAcross (n : Nat) (u : Byte) (s : State) : Effect := do
  let k := n - s.bsRem
  let buf₁ ← orByte s.buf s.bsCur (u >>> k)
  let buf₂ ← orByte buf₁ (s.bsCur + 1) ((u &&& mask k) <<< (8 - k))
  return (s.setBuf buf₂).setCursor (s.bsCur + 1) (8 - k)

/-- `WRITE(N, v)` (40_bitstream.md R150, R151): the capacity check comes before any write. -/
def write (n : Nat) (v : Byte) (s : State) : Effect :=
  if s.capacity < s.count + n then .error (.fatal .capacityExceeded)
  else if n ≤ s.bsRem then writeWithin n (lowBits n v) s
  else writeAcross n (lowBits n v) s

/-- A sequence of writes, in order. -/
def writeChunks : List (Nat × Byte) → State → Effect
  | [], s => .ok s
  | (n, v) :: cs, s => do writeChunks cs (← write n v s)

/-- `WRBITS(w, x)` (40_bitstream.md R158). -/
def wrbits (w x : Nat) (s : State) : Effect := writeChunks (chunks w x) s

/-- The command around one `WRITE`: on completion `RCODE <- OK` (R151). -/
def writeCommand (n : Nat) (v : Byte) (s : State) : Effect := do
  let t ← write n v s
  return t.setRcode .ok

/-- "rounded up to the next multiple of 8", in bytes (40_bitstream.md R140). -/
def bytesFor (bits : Nat) : Nat := bits / 8 + if bits % 8 ≠ 0 then 1 else 0

/-- `BSNEW` on a part with parameters `p` (40_bitstream.md R140). -/
def bsnew (p : Params) (s : State) : Effect :=
  let len := bytesFor s.operand
  if p.bufMax < len then .error (.fatal .resourceLimit)
  else .ok (((s.setBuf (s.buf.fillZero len)).openStream len).setRcode .ok)

/-- `BSVIEW` on a part with parameters `p` (40_bitstream.md R141): `BUF` is not modified. -/
def bsview (p : Params) (s : State) : Effect :=
  let len := s.operand
  if p.bufMax < len then .error (.fatal .resourceLimit)
  else .ok ((s.openStream len).setRcode .ok)

/-- `BSCAP` (40_bitstream.md R143). -/
def bscap (s : State) : Effect := .ok ((s.setRes (zext64 s.capacity)).setRcode .ok)

/-- `BSCOUNT` (40_bitstream.md R144). -/
def bscount (s : State) : Effect := .ok ((s.setRes (zext64 s.count)).setRcode .ok)

/-- The command `BSNEW` (R140). -/
def execBsnew (s : State) : Host.Outcome State Fault Refusal := conclude (encode .bsnew) s (bsnew Config.params s)

/-- The command `BSVIEW` (R141). -/
def execBsview (s : State) : Host.Outcome State Fault Refusal := conclude (encode .bsview) s (bsview Config.params s)

/-- The command `BSCAP` (R143). -/
def execBscap (s : State) : Host.Outcome State Fault Refusal := conclude (encode .bscap) s (bscap s)

/-- The command `BSCOUNT` (R144). -/
def execBscount (s : State) : Host.Outcome State Fault Refusal := conclude (encode .bscount) s (bscount s)

/-- The command `WR1` (R153): `WRITE(1, IMM8)`. -/
def execWr1 (v : Byte) (s : State) : Host.Outcome State Fault Refusal :=
  conclude (encode (.wr1 v)) s (writeCommand 1 v s)

/-- The command `WR2` (R154): `WRITE(2, IMM8)`. -/
def execWr2 (v : Byte) (s : State) : Host.Outcome State Fault Refusal :=
  conclude (encode (.wr2 v)) s (writeCommand 2 v s)

/-- The command `WR4` (R155): `WRITE(4, IMM8)`. -/
def execWr4 (v : Byte) (s : State) : Host.Outcome State Fault Refusal :=
  conclude (encode (.wr4 v)) s (writeCommand 4 v s)

/-- The command `WR8` (R156): `WRITE(8, IMM8)`. -/
def execWr8 (v : Byte) (s : State) : Host.Outcome State Fault Refusal :=
  conclude (encode (.wr8 v)) s (writeCommand 8 v s)

end Sys2Proof.Machine
end

