-- ==== Sys2Proof/Machine/Segment.lean ====
section
/-! DEFINITION. The qr_segment_encoder commands: `SEGNUM`, `SEGALNUM`, `SEGTEXT`, `SEGDATABITS`, `SEGLENBITS`, `SEGENCODE`,
`SEGPAYLOAD` (42_segment.md). -/

namespace Sys2Proof.Machine

/-! ## Construction -/

/-- The decimal digits of `n`, most significant first (42_segment.md R211, R212). -/
def digitsOf (n : Nat) : List Byte := (List.range (digitCount n)).map fun i => BitVec.ofNat 8 (digit n i)

/-- `SEGNUM` (42_segment.md R212). -/
def segnum (s : State) : Effect :=
  let n := s.operand
  .ok (((s.setSegment .numeric (digitsOf n)).setRes (zext64 (digitCount n))).setRcode .ok)

/-- What the scan of an alphanumeric text finds: the codes of all its characters, or the index of the first character
outside the alphabet (42_segment.md R216). -/
inductive Scan where
  | codes (cs : List Byte)
  | invalidAt (i : Nat)
  deriving DecidableEq, Repr

/-- Put a code in front of what the rest of a text gives. -/
def Scan.cons (code : Nat) : Scan → Scan
  | .codes cs => .codes (BitVec.ofNat 8 code :: cs)
  | .invalidAt i => .invalidAt i

/-- The scan of `TXT[i .. i+k-1]` (42_segment.md R216). It reads no byte after the first invalid one (log 10). -/
def scanText (txt : Memory) : (k i : Nat) → Except Stop Scan
  | 0, _ => .ok (.codes [])
  | k + 1, i =>
    match txt.read i with
    | none => .error (.unknown .unwrittenTxt)
    | some b =>
      match lut b with
      | none => .ok (.invalidAt i)
      | some code =>
        match scanText txt k (i + 1) with
        | .ok r => .ok (r.cons code)
        | .error e => .error e

/-- `SEGALNUM` on a part with parameters `p` (42_segment.md R216). -/
def segalnum (p : Params) (s : State) : Effect :=
  let n := s.operand
  if p.txtMax < n then .error (.fatal .resourceLimit)
  else if p.segMax < n then .error (.fatal .resourceLimit)
  else
    match scanText s.txt n 0 with
    | .error e => .error e
    | .ok (.invalidAt i) => .ok ((s.dropSegment.setRes (zext64 i)).setRcode .invalidChar)
    | .ok (.codes cs) => .ok (((s.setSegment .alnum cs).setRes (zext64 n)).setRcode .ok)

/-- The table of well-formed UTF-8 sequences (42_segment.md R221): for each row the range of each byte. -/
def utf8Table : List (List (Nat × Nat)) :=
  [[(0x00, 0x7F)],
   [(0xC2, 0xDF), (0x80, 0xBF)],
   [(0xE0, 0xE0), (0xA0, 0xBF), (0x80, 0xBF)],
   [(0xE1, 0xEC), (0x80, 0xBF), (0x80, 0xBF)],
   [(0xED, 0xED), (0x80, 0x9F), (0x80, 0xBF)],
   [(0xEE, 0xEF), (0x80, 0xBF), (0x80, 0xBF)],
   [(0xF0, 0xF0), (0x90, 0xBF), (0x80, 0xBF), (0x80, 0xBF)],
   [(0xF1, 0xF3), (0x80, 0xBF), (0x80, 0xBF), (0x80, 0xBF)],
   [(0xF4, 0xF4), (0x80, 0x8F), (0x80, 0xBF), (0x80, 0xBF)]]

/-- The text starts with bytes in the row's ranges; a text that ends before the row does not (R221). -/
def startsWithRow : List (Nat × Nat) → List Byte → Bool
  | [], _ => true
  | _ :: _, [] => false
  | (lo, hi) :: row, b :: t => lo ≤ b.toNat && b.toNat ≤ hi && startsWithRow row t

/-- `WF(t, i, n)` on the text from `i` on: the length of the well-formed sequence it starts with, or 0 (R221). -/
def wellFormedLength (t : List Byte) : Nat :=
  match utf8Table.find? fun row => startsWithRow row t with
  | some row => row.length
  | none => 0

/-- The loop of `REPAIR` (42_segment.md R222) on the text from `i` on. The first argument bounds the rounds. -/
def repairLoop (p : Params) : (rounds : Nat) → (prevBad : Bool) → List Byte → List Byte
  | 0, _, _ => []
  | _ + 1, _, [] => []
  | r + 1, prevBad, b :: t =>
    let k := wellFormedLength (b :: t)
    if 0 < k then (b :: t).take k ++ repairLoop p r false ((b :: t).drop k)
    else if p.runPolicy = .perByte ∨ prevBad = false then p.placeholder ++ repairLoop p r true t
    else repairLoop p r true t

/-- `REPAIR(t)` (42_segment.md R222); every round consumes a byte. -/
def repair (p : Params) (t : List Byte) : List Byte := repairLoop p t.length false t

/-- `SEGTEXT` on a part with parameters `p` (42_segment.md R220). -/
def segtext (p : Params) (s : State) : Effect :=
  let n := s.operand
  if p.txtMax < n then .error (.fatal .resourceLimit)
  else do
    let out := repair p (← s.text n)
    if p.segMax < out.length then .error (.fatal .resourceLimit)
    else .ok (((s.setSegment .byte out).setRes (zext64 out.length)).setRcode .ok)

/-! ## Sizing -/

/-- `dataBits()` for a mode and a segment length (42_segment.md R226). -/
def dataBits (m : Mode) (len : Nat) : Nat :=
  match m with
  | .numeric => 10 * (len / 3) + if len % 3 = 1 then 4 else if len % 3 = 2 then 7 else 0
  | .alnum => 11 * (len / 2) + 6 * (len % 2)
  | .byte => 8 * len

/-- The version bands of 42_segment.md R228. -/
inductive Band where
  | low | middle | high
  deriving DecidableEq, Repr

/-- The band of a symbol version: 1 to 9, 10 to 26, 27 to 40; none outside 1 to 40 (R228; version 10: 90 C1). -/
def bandOf (v : Nat) : Option Band :=
  if 1 ≤ v ∧ v ≤ 9 then some .low
  else if 10 ≤ v ∧ v ≤ 26 then some .middle
  else if 27 ≤ v ∧ v ≤ 40 then some .high
  else none

/-- The width of the length field (the table of 42_segment.md R228). -/
def lengthBits (m : Mode) (b : Band) : Nat :=
  match m, b with
  | .numeric, .low => 10
  | .numeric, .middle => 12
  | .numeric, .high => 14
  | .alnum, .low => 9
  | .alnum, .middle => 11
  | .alnum, .high => 13
  | .byte, .low => 8
  | .byte, .middle => 16
  | .byte, .high => 16

/-- `SEGDATABITS` (42_segment.md R225). -/
def segdatabits (s : State) : Effect :=
  match s.segMode with
  | none => .error (.fatal .unrecognizedMode)
  | some m => .ok ((s.setRes (zext64 (dataBits m s.segLen))).setRcode .ok)

/-- `SEGLENBITS v` (42_segment.md R229): the mode is checked before the version. -/
def seglenbits (v : Byte) (s : State) : Effect :=
  match s.segMode with
  | none => .error (.fatal .unrecognizedMode)
  | some m =>
    match bandOf v.toNat with
    | none => .error (.fatal .invalidVersion)
    | some b => .ok ((s.setRes (zext64 (lengthBits m b))).setRcode .ok)

/-! ## Encoding -/

/-- The mode indicator (42_segment.md R230). -/
def tag : Mode → Nat
  | .numeric => 0b0001
  | .alnum => 0b0010
  | .byte => 0b0100

/-- The fields (width, value) of the numeric payload (42_segment.md R232). -/
def numericFields : List Byte → List (Nat × Nat)
  | d₀ :: d₁ :: d₂ :: ds => (10, 100 * d₀.toNat + 10 * d₁.toNat + d₂.toNat) :: numericFields ds
  | [d₀, d₁] => [(7, 10 * d₀.toNat + d₁.toNat)]
  | [d₀] => [(4, d₀.toNat)]
  | [] => []

/-- The fields of the alphanumeric payload (42_segment.md R233). -/
def alnumFields : List Byte → List (Nat × Nat)
  | c₀ :: c₁ :: cs => (11, 45 * c₀.toNat + c₁.toNat) :: alnumFields cs
  | [c₀] => [(6, c₀.toNat)]
  | [] => []

/-- The fields of the byte payload (42_segment.md R234). -/
def byteFields (es : List Byte) : List (Nat × Nat) := es.map fun e => (8, e.toNat)

/-- `PAYLOAD()` by mode, as fields in order (42_segment.md R234). -/
def payloadFields : Mode → List Byte → List (Nat × Nat)
  | .numeric, es => numericFields es
  | .alnum, es => alnumFields es
  | .byte, es => byteFields es

/-- The mode indicator and the length field (42_segment.md R231). -/
def headerFields (m : Mode) (b : Band) (len : Nat) : List (Nat × Nat) := [(4, tag m), (lengthBits m b, len)]

/-- Append fields with `WRBITS`, in order (42_segment.md R231). -/
def writeFields : List (Nat × Nat) → State → Effect
  | [], s => .ok s
  | (w, x) :: fs, s => do writeFields fs (← wrbits w x s)

/-- `PAYLOAD()` (42_segment.md R232 to R234). -/
def payload (m : Mode) (s : State) : Effect := do writeFields (payloadFields m (← s.elements)) s

/-- `SEGENCODE v` (42_segment.md R235): "The whole field sequence is checked against the capacity before the first bit is
written". -/
def segencode (v : Byte) (s : State) : Effect :=
  match s.segMode with
  | none => .error (.fatal .unrecognizedMode)
  | some m =>
    match bandOf v.toNat with
    | none => .error (.fatal .invalidVersion)
    | some b =>
      if s.capacity < s.count + (4 + lengthBits m b + dataBits m s.segLen) then .error (.fatal .capacityExceeded)
      else do
        let t ← writeFields (headerFields m b s.segLen) s
        let u ← payload m t
        return u.setRcode .ok

/-- `SEGPAYLOAD` (42_segment.md R236). -/
def segpayload (s : State) : Effect :=
  match s.segMode with
  | none => .error (.fatal .unrecognizedMode)
  | some m =>
    if s.capacity < s.count + dataBits m s.segLen then .error (.fatal .capacityExceeded)
    else do
      let t ← payload m s
      return t.setRcode .ok

/-- The command `SEGNUM` (R212). -/
def execSegnum (s : State) : Host.Outcome State Fault Refusal := conclude (encode .segnum) s (segnum s)

/-- The command `SEGALNUM` (R216). -/
def execSegalnum (s : State) : Host.Outcome State Fault Refusal :=
  conclude (encode .segalnum) s (segalnum Config.params s)

/-- The command `SEGTEXT` (R220). -/
def execSegtext (s : State) : Host.Outcome State Fault Refusal := conclude (encode .segtext) s (segtext Config.params s)

/-- The command `SEGDATABITS` (R225). -/
def execSegdatabits (s : State) : Host.Outcome State Fault Refusal := conclude (encode .segdatabits) s (segdatabits s)

/-- The command `SEGLENBITS` (R229). -/
def execSeglenbits (v : Byte) (s : State) : Host.Outcome State Fault Refusal :=
  conclude (encode (.seglenbits v)) s (seglenbits v s)

/-- The command `SEGENCODE` (R235). -/
def execSegencode (v : Byte) (s : State) : Host.Outcome State Fault Refusal :=
  conclude (encode (.segencode v)) s (segencode v s)

/-- The command `SEGPAYLOAD` (R236). -/
def execSegpayload (s : State) : Host.Outcome State Fault Refusal := conclude (encode .segpayload) s (segpayload s)

end Sys2Proof.Machine
end

