-- ==== Sys2Proof/Machine/Dispatch.lean ====
section
/-! DEFINITION. From a command to its meaning, one arm per constructor. -/

namespace Sys2Proof.Machine

/-- What a command does to a core that is not halted ("Every rule below assumes `STATUS.FATAL = 0`", 40_bitstream.md); the
halt is checked before a word is decoded, in `runCommand`. -/
def exec (i : Instr) (s : State) : Host.Outcome State Fault Refusal :=
  match i with
  | .bsnew => Sys2Proof.Machine.execBsnew s
  | .bsview => Sys2Proof.Machine.execBsview s
  | .bscap => Sys2Proof.Machine.execBscap s
  | .bscount => Sys2Proof.Machine.execBscount s
  | .wr1 v => Sys2Proof.Machine.execWr1 v s
  | .wr2 v => Sys2Proof.Machine.execWr2 v s
  | .wr4 v => Sys2Proof.Machine.execWr4 v s
  | .wr8 v => Sys2Proof.Machine.execWr8 v s
  | .anlookup c => Sys2Proof.Machine.execAnlookup c s
  | .digits => Sys2Proof.Machine.execDigits s
  | .segnum => Sys2Proof.Machine.execSegnum s
  | .segalnum => Sys2Proof.Machine.execSegalnum s
  | .segtext => Sys2Proof.Machine.execSegtext s
  | .segdatabits => Sys2Proof.Machine.execSegdatabits s
  | .seglenbits v => Sys2Proof.Machine.execSeglenbits v s
  | .segencode v => Sys2Proof.Machine.execSegencode v s
  | .segpayload => Sys2Proof.Machine.execSegpayload s

end Sys2Proof.Machine
end

