-- ==== Sys2Proof/Machine/Port.lean ====
section
/-! DEFINITION. The host port: delivering a command, register and cell accesses, reset (10_state.md R32, R33; 20_memory.md
R70, R72, R73, R80; 60_exceptions.md R276; 70_reset_and_hazards.md R300, R301). -/

namespace Sys2Proof.Machine

/-- A command word reaches the core. The order is 60_exceptions.md R273: halted, the word is ignored undecoded (R276);
illegal, the fault entry with `ILLEGAL_COMMAND` (30_encoding.md R106); else the command runs. -/
def runCommand (w : CommandWord) (s : State) : Host.Outcome State Fault Refusal :=
  if s.halted then .next s
  else
    match decode w with
    | .ok i => exec i s
    | .illegal _ => .next (s.takeFatal .illegalCommand w)

/-- A host write of a register (10_state.md R32): `CMD` executes, `ARG` takes the value, every other one is read-only or
unmapped and ignores it. -/
def writeReg (index : Nat) (v : RegWord) (s : State) : Host.Outcome State Fault Refusal :=
  if index = 0 then runCommand (commandOf v) s
  else if index = 1 then .next (s.setArg v)
  else .next s

/-- A host write of a byte cell (20_memory.md R70): out of range it is ignored (R73), and in `SEG` always (R72). -/
def writeCell (p : Params) (sp : Space) (a : Nat) (v : Byte) (s : State) : State :=
  match sp with
  | .buf => if a < p.bufMax then s.setBuf (s.buf.write a v) else s
  | .txt => if a < p.txtMax then s.setTxt (s.txt.write a v) else s
  | .seg => s

/-- A register as the host reads it (10_state.md R32). -/
def State.readReg (p : Params) (s : State) (index : Nat) : RegWord :=
  match index with
  | 0 => 0
  | 1 => s.arg
  | 2 => s.res
  | 3 => s.statusWord
  | 4 => s.fcmd.setWidth 64
  | 5 => zext64 s.bsLen
  | 6 => zext64 s.bsCur
  | 7 => zext64 s.bsRem
  | 8 => (modeField s.segMode).setWidth 64
  | 9 => zext64 s.segLen
  | 10 => zext64 p.bufMax
  | 11 => zext64 p.txtMax
  | 12 => zext64 p.segMax
  | _ => 0

/-- A byte cell as the host reads it (20_memory.md R73: 0 out of range). A cell nothing has written since reset, and an
element at or beyond `SEG_LEN`, read as free values (93 U3, log 4). -/
def State.readCell (p : Params) (s : State) (sp : Space) (a : Nat) : Byte :=
  match sp with
  | .buf => if a < p.bufMax then (s.buf.read a).getD (Config.unwrittenByte s.resetCount .buf a) else 0
  | .txt => if a < p.txtMax then (s.txt.read a).getD (Config.unwrittenByte s.resetCount .txt a) else 0
  | .seg =>
    if a < p.segMax then
      if a < s.segLen then (s.seg.read a).getD (Config.unwrittenByte s.resetCount .seg a)
      else Config.spareElement s.resetCount s.segCount a
    else 0

/-- A reset that arrives while the host makes a write (70_reset_and_hazards.md R301, 93 U11): "The cell being written takes
any value. Everything else takes its rule R53 value." Only a write that would change a cell has one (log 7). -/
def restartDuring (p : Params) (w : HostWrite) (s : State) : State :=
  let t := s.restart
  match w with
  | .reg index _ => if index = 1 then t.setArg (Config.interruptedArg t.resetCount) else t
  | .cell sp a _ => writeCell p sp a (Config.interruptedByte t.resetCount) t

/-- One event of the total order of 20_memory.md R83. A read answers the host and changes nothing else (R80). -/
def perform (p : Params) (e : HostAccess) (s : State) : Host.Outcome State Fault Refusal :=
  match e with
  | .write (.reg index v) => writeReg index v s
  | .write (.cell sp a v) => .next (writeCell p sp a v s)
  | .readReg index => .next (s.setReadData (s.readReg p index))
  | .readCell sp a => .next (s.setReadData ((s.readCell p sp a).setWidth 64))
  | .reset => .next s.restart
  | .resetDuring w => .next (restartDuring p w s)

/-- The next event, if the host has one; else the core idles and "holds its state unchanged" (60_exceptions.md R286,
70_reset_and_hazards.md R301). -/
def nextEvent (p : Params) (s : State) : Host.Outcome State Fault Refusal :=
  match s.pending with
  | [] => .next s
  | e :: rest => perform p e (s.setPending rest)

/-- The host's next access is a write of this word to `REG.CMD`. -/
def State.deliver (s : State) (w : CommandWord) : State :=
  s.setPending (.write (.reg 0 (w.setWidth 64)) :: s.pending)

end Sys2Proof.Machine
end

