-- ==== Sys2Proof/Machine/Step.lean ====
section
/-! DEFINITION. One step: the next host access, with the command it delivers. There is no program counter and no fetch
(10_state.md R31). -/

namespace Sys2Proof.Machine

/-- One event of the order of 20_memory.md R83, on this implementation. -/
def step (s : State) : Host.Outcome State Fault Refusal := nextEvent Config.params s

/-- The command of `nbits` bits `w` stands first among the host's accesses, so the very next step delivers it (log 2). -/
def State.withFetchWord (s : State) (nbits w : Nat) : State := s.deliver (BitVec.ofNat 32 (w % 2 ^ nbits))

end Sys2Proof.Machine
end

