-- ==== Sys2Proof/Machine/Assembler.lean ====
section
/-! DEFINITION. Assembler text, host directives and pseudo-instructions as host accesses (30_encoding.md R109 to R111).
Notation only: no command's meaning depends on this file. -/

namespace Sys2Proof.Machine

/-! ## Host accesses -/

/-- A command is sent as a write of its word to `REG.CMD` (10_state.md R33). -/
def commandAccess (i : Instr) : HostAccess := .write (.reg 0 ((encode i).setWidth 64))

/-- The write command of a width, for the widths of `WRBITS` (30_encoding.md R111). -/
def writeInstr (n : Nat) (v : Byte) : Instr :=
  if n = 8 then .wr8 v else if n = 4 then .wr4 v else if n = 2 then .wr2 v else .wr1 v

/-- Writes of successive bytes of a space. -/
def putAccesses (sp : Space) : Nat → List Byte → List HostAccess
  | _, [] => []
  | a, b :: bs => .write (.cell sp a b) :: putAccesses sp (a + 1) bs

/-- Reads of `n` successive bytes of a space. -/
def getAccesses (sp : Space) (a n : Nat) : List HostAccess := (List.range n).map fun k => .readCell sp (a + k)

/-- A line of a program: a command, a host directive (R110) or a pseudo-instruction (R111). -/
inductive Line where
  | command (i : Instr)
  | setArg (v : RegWord)
  | putTxt (s : List Byte)
  | putBuf (a : Nat) (bs : List Byte)
  | getReg (index : Nat)
  | getBuf (a n : Nat)
  | getSeg (a n : Nat)
  | bsnewI (v : RegWord)
  | bsviewI (v : RegWord)
  | digitsI (v : RegWord)
  | segnumI (v : RegWord)
  | segalnumS (s : List Byte)
  | segtextS (s : List Byte)
  | wrbits (w x : Nat)
  deriving DecidableEq, Repr

/-- `SETARG v` (R110). -/
def setArgAccess (v : RegWord) : HostAccess := .write (.reg 1 v)

/-- `PUTTXT "s"` ; `SETARG len(s)` ; a text constructor (R111). -/
def textAccesses (s : List Byte) (i : Instr) : List HostAccess :=
  putAccesses .txt 0 s ++ [setArgAccess (BitVec.ofNat 64 s.length), commandAccess i]

/-- What a line does at the port (R110, R111). -/
def Line.accesses : Line → List HostAccess
  | .command i => [commandAccess i]
  | .setArg v => [setArgAccess v]
  | .putTxt s => putAccesses .txt 0 s
  | .putBuf a bs => putAccesses .buf a bs
  | .getReg index => [.readReg index]
  | .getBuf a n => getAccesses .buf a n
  | .getSeg a n => getAccesses .seg a n
  | .bsnewI v => [setArgAccess v, commandAccess .bsnew]
  | .bsviewI v => [setArgAccess v, commandAccess .bsview]
  | .digitsI v => [setArgAccess v, commandAccess .digits]
  | .segnumI v => [setArgAccess v, commandAccess .segnum]
  | .segalnumS s => textAccesses s .segalnum
  | .segtextS s => textAccesses s .segtext
  | .wrbits w x => (chunks w x).map fun c => commandAccess (writeInstr c.1 c.2)

/-- A program of such lines, placed among the host's accesses. -/
def program (ls : List Line) : List HostAccess := (ls.map Line.accesses).flatten

/-- The index of a register by its name (10_state.md R32), for `GET REG.NAME`. -/
def regIndex (name : String) : Option Nat :=
  ["CMD", "ARG", "RES", "STATUS", "FCMD", "BS_LEN", "BS_CUR", "BS_REM", "SEG_MODE", "SEG_LEN",
    "CFG_BUF_MAX", "CFG_TXT_MAX", "CFG_SEG_MAX"].findIdx? fun n => n == name

/-! ## Text (R109) -/

/-- White space within a line (log 11). -/
def isBlank (c : Char) : Bool := c = ' ' || c = '\t'

/-- The value of a digit in a base up to 16. -/
def digitValue (base : Nat) (c : Char) : Option Nat :=
  let v := if '0' ≤ c ∧ c ≤ '9' then c.toNat - 48
    else if 'a' ≤ c ∧ c ≤ 'f' then c.toNat - 87
    else if 'A' ≤ c ∧ c ≤ 'F' then c.toNat - 55
    else 16
  if v < base then some v else none

/-- A number written in a base, after the digits already read. -/
def numberFrom (base acc : Nat) : List Char → Option Nat
  | [] => some acc
  | c :: cs =>
    match digitValue base c with
    | some d => numberFrom base (acc * base + d) cs
    | none => none

/-- "a decimal number, a `0x` hexadecimal number, a `0b` binary number" (R109). -/
def parseNumber : List Char → Option Nat
  | [] => none
  | '0' :: 'x' :: c :: cs => numberFrom 16 0 (c :: cs)
  | '0' :: 'b' :: c :: cs => numberFrom 2 0 (c :: cs)
  | cs => numberFrom 10 0 cs

/-- Nothing but white space and a comment is left: "A line comment starts with `;`" (R109). -/
def endOfLine (cs : List Char) : Bool :=
  match cs.dropWhile isBlank with
  | [] => true
  | c :: _ => c = ';'

/-- The operand part of a line: none, a number, or for `ANLOOKUP` a quoted character meaning its byte value (R109,
00_scope.md R17). -/
def parseOperand (mnemonic : String) (cs : List Char) : Option (Option Nat) :=
  match cs.dropWhile isBlank with
  | [] => some none
  | ';' :: _ => some none
  | '\'' :: c :: '\'' :: rest =>
    if mnemonic == "ANLOOKUP" && c.toNat < 128 && endOfLine rest then some (some c.toNat) else none
  | cs =>
    let word := cs.takeWhile fun c => !isBlank c && c != ';'
    if endOfLine (cs.dropWhile fun c => !isBlank c && c != ';') then (parseNumber word).map some else none

/-- A command line of assembler text (R109), not yet checked (`AsmLine.wellFormed`). -/
def parseAsm (text : List Char) : Option AsmLine :=
  let cs := text.dropWhile isBlank
  let mnemonic := String.ofList (cs.takeWhile fun c => !isBlank c && c != ';')
  (parseOperand mnemonic (cs.dropWhile fun c => !isBlank c && c != ';')).map fun o =>
    { mnemonic := mnemonic, operand := o }

/-- The command word of a line of assembler text; none for an assembly error (R109). -/
def assemble (text : List Char) : Option CommandWord :=
  match parseAsm text with
  | some l => l.toInstr.map encode
  | none => none

/-- The bytes of a quoted text, with "escape `\xHH` for any byte" (R110). -/
def unescape : List Char → Option (List Byte)
  | [] => some []
  | '\\' :: 'x' :: h :: l :: cs =>
    match digitValue 16 h, digitValue 16 l, unescape cs with
    | some a, some b, some bs => some (BitVec.ofNat 8 (16 * a + b) :: bs)
    | _, _, _ => none
  | c :: cs =>
    if c = '\\' then none
    else (unescape cs).map fun bs => (String.utf8EncodeChar c).map (fun u => u.toBitVec) ++ bs

end Sys2Proof.Machine
end

