-- ==== Sys2Proof/Safety.lean ====
section
/-! DEFINITION. The terms claims are made in: the bit at a stream position, the bits of a field and of a segment, the
invariants the spec states, and what a run shows at its end. -/

namespace Sys2Proof.Machine

/-! ## Bits of the stream -/

/-- The bit at stream position `p`: "bit `7 - (p mod 8)` of `BUF[p div 8]`" (00_scope.md R16); `none` where the byte was
never written. -/
def streamBit (m : Memory) (p : Nat) : Option Bool := (m.read (p / 8)).map fun b => b.getLsbD (7 - p % 8)

/-- The bits of a field, most significant first: `x mod 2^w` in `w` bits (40_bitstream.md R158). -/
def fieldBits (f : Nat × Nat) : List Bool := (List.range f.1).map fun j => f.2.testBit (f.1 - 1 - j)

/-- The bits of a sequence of fields. -/
def fieldsBits (fs : List (Nat × Nat)) : List Bool := (fs.map fieldBits).flatten

/-- Every byte that holds one of the next `n` stream positions was written (93 U3). -/
abbrev State.touchesWritten (s : State) (n : Nat) : Prop := ∀ j < n, (s.buf.read ((s.count + j) / 8)).isSome

/-! ## Invariants -/

/-- The cursor invariants of 10_state.md R43: (1), the part of (2) and (3) that no parameter enters. -/
structure State.CursorInv (s : State) : Prop where
  rem_pos : 1 ≤ s.bsRem
  rem_le : s.bsRem ≤ 8
  cur_le : s.bsCur ≤ s.bsLen
  full : s.bsCur = s.bsLen → s.bsRem = 8

/-- The stream invariants (1) to (3) of 10_state.md R43, of which (4), `count() <= capacity()`, follows. -/
structure State.StreamInv (p : Params) (s : State) : Prop where
  cursor : s.CursorInv
  len_le : s.bsLen ≤ p.bufMax

/-- The segment invariants of 10_state.md R46 and R48; every element of the segment has been written. -/
structure State.SegmentInv (p : Params) (s : State) : Prop where
  len_le : s.segLen ≤ p.segMax
  none_len : s.segMode = none → s.segLen = 0
  written : ∀ i < s.segLen, (s.seg.read i).isSome
  numeric : s.segMode = some .numeric → ∀ i < s.segLen, ∀ b, s.seg.read i = some b → b.toNat ≤ 9
  alnum : s.segMode = some .alnum → ∀ i < s.segLen, ∀ b, s.seg.read i = some b → b.toNat ≤ 44

/-- `FCAUSE` is "0 while `FATAL = 0`" and `FCMD` is written with it (10_state.md R36, R39). -/
structure State.HaltInv (s : State) : Prop where
  running : s.fatal = false → s.fcause = none ∧ s.fcmd = 0
  halted : s.fatal = true → s.fcause ≠ none

/-- The byte spaces keep their canonical form and their sizes (20_memory.md R70, R73). -/
structure State.MemoryInv (p : Params) (s : State) : Prop where
  buf_wf : s.buf.wf
  txt_wf : s.txt.wf
  seg_wf : s.seg.wf
  buf_size : ∀ a, p.bufMax ≤ a → s.buf.read a = none
  txt_size : ∀ a, p.txtMax ≤ a → s.txt.read a = none
  seg_size : ∀ a, p.segMax ≤ a → s.seg.read a = none

/-- Everything the spec says of every reachable state. -/
structure State.Inv (p : Params) (s : State) : Prop where
  stream : s.StreamInv p
  segment : s.SegmentInv p
  halt : s.HaltInv
  memory : s.MemoryInv p

/-! ## The end of a run -/

/-- "its observation is `STATUS`, the stream registers and `BUF[0 .. BS_LEN-1]`" (70_reset_and_hazards.md R316). DESIGN
CHOICE, unsafe (log 15): a stream byte that nothing has written since reset stands as `none`, no value. -/
structure Observation where
  status : RegWord
  bsLen : Nat
  bsCur : Nat
  bsRem : Nat
  bytes : List (Option Byte)
  deriving DecidableEq, Repr

/-- What a run that ends in `s` shows (R316). DESIGN CHOICE, unsafe (log 15): a byte of a view that nothing has written is
`none` here, so that two such bytes compare equal, where a host read of it gives the free value of log 4
(`State.readCell`). -/
def State.observe (s : State) : Observation where
  status := s.statusWord
  bsLen := s.bsLen
  bsCur := s.bsCur
  bsRem := s.bsRem
  bytes := (List.range s.bsLen).map s.buf.read

/-- "A run whose `STATUS.FATAL = 1` is a failed run whatever the buffer holds." (R316) -/
def State.failedRun (s : State) : Bool := s.fatal

/-- The state an outcome leaves, if it leaves one. -/
def stateOf (o : Host.Outcome State Fault Refusal) : Option State :=
  match o with
  | .next s => some s
  | .fault _ => none
  | .refused _ => none

/-- The fault an outcome stops with, if it does. -/
def faultOf (o : Host.Outcome State Fault Refusal) : Option Fault :=
  match o with
  | .fault f => some f
  | .next _ => none
  | .refused _ => none

end Sys2Proof.Machine
end

