-- ==== Sys2Proof/Certificates/Slice0/Obligations.lean ====
section
/-! DEFINITION. The statements about the core, from the numbered rules of spec/. "Completes" means that `exec` answers a
next state whose `FATAL` is still 0. Where a statement writes the next state as a record `{ s with ... }`, every field
that the record does not name keeps its value. -/

open Sys2Proof Sys2Proof.Machine

/-! ## Encoding -/

/-- The 17 `match` words of 30_encoding.md R105, each with its command, four words with an immediate, and words that R106
calls illegal. -/
def Obligations.SampleWordsDecode : Prop :=
  decode 0x01000000 = .ok .bsnew ∧ decode 0x02000000 = .ok .bsview ∧ decode 0x03000000 = .ok .bscap ∧
  decode 0x04000000 = .ok .bscount ∧ decode 0x10000000 = .ok (.wr1 0) ∧ decode 0x11000000 = .ok (.wr2 0) ∧
  decode 0x12000000 = .ok (.wr4 0) ∧ decode 0x13000000 = .ok (.wr8 0) ∧ decode 0x20000000 = .ok (.anlookup 0) ∧
  decode 0x21000000 = .ok .digits ∧ decode 0x30000000 = .ok .segnum ∧ decode 0x31000000 = .ok .segalnum ∧
  decode 0x32000000 = .ok .segtext ∧ decode 0x38000000 = .ok .segdatabits ∧
  decode 0x39000000 = .ok (.seglenbits 0) ∧ decode 0x3A000000 = .ok (.segencode 0) ∧
  decode 0x3B000000 = .ok .segpayload ∧
  decode 0x100000FE = .ok (.wr1 0xFE) ∧ decode 0x130000A5 = .ok (.wr8 0xA5) ∧
  decode 0x20000061 = .ok (.anlookup 0x61) ∧ decode 0x3A000028 = .ok (.segencode 40) ∧
  decode 0x00000000 = .illegal .unassignedOpcode ∧ decode 0xFFFFFFFF = .illegal .unassignedOpcode ∧
  decode 0x10000100 = .illegal .reservedBits ∧ decode 0x03000001 = .illegal .immediateNotAllowed

/-- Over all 2^32 words: a word decodes to a command exactly when it is that command's encoding, so no bit of an
encoding is dropped and no other word stands for the command (30_encoding.md R100 to R102). -/
def Obligations.DecodeInvertsEncode : Prop :=
  ∀ (w : CommandWord) (i : Instr), decode w = .ok i ↔ w = encode i

/-- 30_encoding.md R100, R105: a word selects exactly one row of the opcode map and decodes to that row's command with the
word's `IMM8`, or it selects none and is illegal. -/
def Obligations.EveryWordIsOneRowOrIllegal : Prop :=
  ∀ w : CommandWord,
    (∃ r ∈ opcodeMap, w &&& r.mask = r.pattern ∧ decode w = .ok (r.op.instr (w.extractLsb' 0 8)) ∧
      ∀ r' ∈ opcodeMap, w &&& r'.mask = r'.pattern → r' = r) ∨
    ((∀ r ∈ opcodeMap, w &&& r.mask ≠ r.pattern) ∧ ∃ why, decode w = .illegal why)

/-- 30_encoding.md R106: the illegal words are those with an unassigned `OPC`, a nonzero `RSV`, or a nonzero `IMM8` in
format N or A, and one of them delivered to a running core halts it with `ILLEGAL_COMMAND` and has no other effect. -/
def Obligations.IllegalWordHaltsCore : Prop :=
  ∀ (w : CommandWord) (s : State), s.fatal = false →
    ((w.extractLsb' 24 8 ∉ ([0x01, 0x02, 0x03, 0x04, 0x10, 0x11, 0x12, 0x13, 0x20, 0x21, 0x30, 0x31, 0x32, 0x38, 0x39,
          0x3A, 0x3B] : List Byte) ∨
      w.extractLsb' 8 16 ≠ (0 : BitVec 16) ∨
      (w.extractLsb' 24 8 ∈ ([0x01, 0x02, 0x03, 0x04, 0x21, 0x30, 0x31, 0x32, 0x38, 0x3B] : List Byte) ∧
        w.extractLsb' 0 8 ≠ (0 : Byte))) ↔
      ∃ why, decode w = .illegal why) ∧
    ((∃ why, decode w = .illegal why) →
      step (s.deliver w) = .next { s with fatal := true, fcause := some .illegalCommand, fcmd := w })

/-! ## Steps, halt and reset -/

/-- A STEP RUNS THE DECODED INSTRUCTION (10_state.md R33): when the host's next access writes `REG.CMD` on a running core
and bits [31:0] of the value decode to `i`, the step is `exec i` on the state without that access; so the encoding of
any command, delivered, runs that command. -/
def Obligations.StepRunsDecodedCommand : Prop :=
  (∀ (s : State) (v : RegWord) (rest : List HostAccess) (i : Instr), s.fatal = false →
    s.pending = .write (.reg 0 v) :: rest → decode (v.extractLsb' 0 32) = .ok i →
    step s = exec i { s with pending := rest }) ∧
  ∀ (s : State) (i : Instr), s.fatal = false → step (s.deliver (encode i)) = exec i s

/-- 30_encoding.md R108: a halted core ignores every command word. -/
def Obligations.HaltedCoreIgnoresCommands : Prop :=
  ∀ (s : State) (v : RegWord) (rest : List HostAccess), s.fatal = true → s.pending = .write (.reg 0 v) :: rest →
    step s = .next { s with pending := rest }

/-- 60_exceptions.md R277: of all the steps a halted core can take, exactly those that take a reset end the halt; they clear
`FATAL`, `FCAUSE` and `FCMD`, and every other step keeps all three. -/
def Obligations.HaltEndsOnlyAtReset : Prop :=
  ∀ s t : State, s.fatal = true → step s = .next t →
    ((s.pending.head? = some .reset ∨ ∃ w, s.pending.head? = some (.resetDuring w)) →
      t.fatal = false ∧ t.fcause = none ∧ t.fcmd = 0) ∧
    (¬(s.pending.head? = some .reset ∨ ∃ w, s.pending.head? = some (.resetDuring w)) →
      t.fatal = true ∧ t.fcause = s.fcause ∧ t.fcmd = s.fcmd)

/-- 70_reset_and_hazards.md R300 with 10_state.md R53: at power-on and after a step that takes a reset, every piece of the
spec's state has its reset value, and no byte of the three spaces counts as written. -/
def Obligations.ResetSetsEveryPiece : Prop :=
  (∀ (s : State) (rest : List HostAccess), s.pending = .reset :: rest → ∃ t, step s = .next t ∧ t.pending = rest) ∧
  ∀ t : State, (t = State.reset ∨ ∃ s : State, s.pending.head? = some .reset ∧ step s = .next t) →
    t.arg = 0 ∧ t.res = 0 ∧ t.fatal = false ∧ t.fcause = none ∧ t.rcode = .ok ∧ t.fcmd = 0 ∧
    t.bsLen = 0 ∧ t.bsCur = 0 ∧ t.bsRem = 8 ∧ t.segMode = none ∧ t.segLen = 0 ∧
    ∀ a, t.buf.read a = none ∧ t.txt.read a = none ∧ t.seg.read a = none

/-- 70_reset_and_hazards.md R301, 93 U11: a reset that arrives while the host writes a cell leaves that cell at a free
value (any value) and everything else at its reset value. MODEL'S CHOICE (log 7): the cells are `ARG`, `BUF` and `TXT`
in range; a write that would be ignored, or a command, leaves none. -/
def Obligations.InterruptedWriteTakesAnyValue : Prop :=
  ∀ (s : State) (w : HostWrite) (rest : List HostAccess), s.pending = .resetDuring w :: rest →
    ∃ t, step s = .next t ∧
      t.res = 0 ∧ t.fatal = false ∧ t.fcause = none ∧ t.rcode = .ok ∧ t.fcmd = 0 ∧ t.bsLen = 0 ∧ t.bsCur = 0 ∧
      t.bsRem = 8 ∧ t.segMode = none ∧ t.segLen = 0 ∧ t.pending = rest ∧
      ((∃ v, w = .reg 1 v) → t.arg = Config.interruptedArg (s.resetCount + 1)) ∧ ((∀ v, w ≠ .reg 1 v) → t.arg = 0) ∧
      (∀ a, (∃ v, w = .cell .buf a v) ∧ a < Config.params.bufMax →
        t.buf.read a = some (Config.interruptedByte (s.resetCount + 1))) ∧
      (∀ a, ¬((∃ v, w = .cell .buf a v) ∧ a < Config.params.bufMax) → t.buf.read a = none) ∧
      (∀ a, (∃ v, w = .cell .txt a v) ∧ a < Config.params.txtMax →
        t.txt.read a = some (Config.interruptedByte (s.resetCount + 1))) ∧
      (∀ a, ¬((∃ v, w = .cell .txt a v) ∧ a < Config.params.txtMax) → t.txt.read a = none) ∧
      ∀ a, t.seg.read a = none

/-- 20_memory.md R83: a step takes exactly the first of the host's accesses and leaves the others in their order. -/
def Obligations.AccessesTakenInOrder : Prop :=
  ∀ s t : State, step s = .next t → t.pending = s.pending.tail

/-- MODEL'S CHOICE (log 2), after 60_exceptions.md R286 and 70_reset_and_hazards.md R301: with no access to come the core
idles and holds its state. -/
def Obligations.IdleCoreHoldsState : Prop :=
  ∀ s : State, s.pending = [] → step s = .next s

/-! ## The host port -/

/-- 10_state.md R32: a host write sets `ARG`; a write of every other register but `CMD` is ignored, halted or not. -/
def Obligations.OnlyArgIsWritable : Prop :=
  ∀ (s : State) (k : Nat) (v : RegWord) (rest : List HostAccess), s.pending = .write (.reg k v) :: rest →
    (k = 1 → step s = .next { s with pending := rest, arg := v }) ∧
    (2 ≤ k → step s = .next { s with pending := rest })

/-- 10_state.md R32, R33, R45: what the host reads at each register index, as numbers; the read changes nothing but what
the port answers (the model's own `readData`). -/
def Obligations.HostRegisterReads : Prop :=
  ∀ (s : State) (k : Nat) (rest : List HostAccess), s.StreamInv Config.params → s.segLen < 2 ^ 64 →
    s.pending = .readReg k :: rest →
    ∃ v : RegWord, step s = .next { s with pending := rest, readData := v } ∧
      (k = 0 → v = 0) ∧ (k = 1 → v = s.arg) ∧ (k = 2 → v = s.res) ∧ (k = 4 → v.toNat = s.fcmd.toNat) ∧
      (k = 5 → v.toNat = s.bsLen) ∧ (k = 6 → v.toNat = s.bsCur) ∧ (k = 7 → v.toNat = s.bsRem) ∧
      (k = 8 → s.segMode = none → v = 0) ∧ (k = 8 → s.segMode = some .numeric → v = 1) ∧
      (k = 8 → s.segMode = some .alnum → v = 2) ∧ (k = 8 → s.segMode = some .byte → v = 3) ∧
      (k = 9 → v.toNat = s.segLen) ∧ (k = 10 → v.toNat = Config.params.bufMax) ∧
      (k = 11 → Config.params.txtMax < 2 ^ 64 → v.toNat = Config.params.txtMax) ∧
      (k = 12 → Config.params.segMax < 2 ^ 64 → v.toNat = Config.params.segMax) ∧ (13 ≤ k → v = 0)

/-- 10_state.md R36, R37, 60_exceptions.md R271: the fields of `STATUS` as the host reads it. -/
def Obligations.StatusWordFields : Prop :=
  ∀ (s : State) (rest : List HostAccess), s.pending = .readReg 3 :: rest →
    ∃ v : RegWord, step s = .next { s with pending := rest, readData := v } ∧
      v.getLsbD 0 = s.fatal ∧ v.extractLsb' 1 3 = (0 : BitVec 3) ∧ v.extractLsb' 12 52 = (0 : BitVec 52) ∧
      v.extractLsb' 4 4 = (match s.fcause with
        | none => (0 : BitVec 4)
        | some .capacityExceeded => 1
        | some .invalidVersion => 2
        | some .unrecognizedMode => 3
        | some .illegalCommand => 4
        | some .resourceLimit => 5) ∧
      v.extractLsb' 8 4 = (match s.rcode with
        | .ok => (0 : BitVec 4)
        | .notFound => 1
        | .invalidChar => 2)

/-- 20_memory.md R70, R73: a host write of a `BUF` or `TXT` cell in range changes that cell of that space and nothing
else, and the host reads a written cell back; out of range a write is ignored and a read gives 0, in `SEG` too. -/
def Obligations.HostCellAccesses : Prop :=
  ∀ (s : State) (a : Nat) (rest : List HostAccess),
    (∀ v, s.pending = .write (.cell .buf a v) :: rest →
      (a < Config.params.bufMax → ∃ m, step s = .next { s with pending := rest, buf := m } ∧
        (∀ b, m.read b = if b = a then some v else s.buf.read b)) ∧
      (Config.params.bufMax ≤ a → step s = .next { s with pending := rest })) ∧
    (∀ v, s.pending = .write (.cell .txt a v) :: rest →
      (a < Config.params.txtMax → ∃ m, step s = .next { s with pending := rest, txt := m } ∧
        (∀ b, m.read b = if b = a then some v else s.txt.read b)) ∧
      (Config.params.txtMax ≤ a → step s = .next { s with pending := rest })) ∧
    (s.pending = .readCell .buf a :: rest →
      (∀ v, a < Config.params.bufMax → s.buf.read a = some v →
        step s = .next { s with pending := rest, readData := v.setWidth 64 }) ∧
      (Config.params.bufMax ≤ a → step s = .next { s with pending := rest, readData := 0 })) ∧
    (s.pending = .readCell .txt a :: rest →
      (∀ v, a < Config.params.txtMax → s.txt.read a = some v →
        step s = .next { s with pending := rest, readData := v.setWidth 64 }) ∧
      (Config.params.txtMax ≤ a → step s = .next { s with pending := rest, readData := 0 })) ∧
    (s.pending = .readCell .seg a :: rest → Config.params.segMax ≤ a →
      step s = .next { s with pending := rest, readData := 0 })

/-- 20_memory.md R72: the host reads the segment's elements and cannot write `SEG`. -/
def Obligations.SegIsHostReadOnly : Prop :=
  ∀ (s : State) (a : Nat) (rest : List HostAccess),
    (∀ v, s.pending = .write (.cell .seg a v) :: rest → step s = .next { s with pending := rest }) ∧
    (∀ b, s.segLen ≤ Config.params.segMax → a < s.segLen → s.seg.read a = some b →
      s.pending = .readCell .seg a :: rest →
      step s = .next { s with pending := rest, readData := b.setWidth 64 })

/-- 20_memory.md R80: a host read has no side effect on the core and is idempotent: the same read made twice in a row
answers the same. -/
def Obligations.HostReadsAreIdempotent : Prop :=
  ∀ (s t : State) (e : HostAccess) (rest : List HostAccess), ((∃ k, e = .readReg k) ∨ ∃ sp a, e = .readCell sp a) →
    s.pending = e :: e :: rest → step s = .next t →
    t = { s with pending := e :: rest, readData := t.readData } ∧
    step t = .next { s with pending := rest, readData := t.readData }

/-! ## Fatal errors and results -/

/-- 60_exceptions.md R274, R275: a word that halts a running core writes `FATAL`, `FCAUSE` and `FCMD` and nothing else. -/
def Obligations.FatalErrorsArePrecise : Prop :=
  ∀ (s t : State) (w : CommandWord), s.fatal = false → step (s.deliver w) = .next t → t.fatal = true →
    ∃ c, t = { s with fatal := true, fcause := some c, fcmd := w }

/-- 10_state.md R37: a command that completes writes one of the result codes 0, 1 (`ANLOOKUP` alone) and 2 (`SEGALNUM`
alone) into `STATUS` [11:8] and leaves `FATAL`, `FCAUSE` and `FCMD`; a fatal error leaves the result code. -/
def Obligations.CompletionWritesResultCode : Prop :=
  ∀ (i : Instr) (s t : State), s.fatal = false → exec i s = .next t →
    (t.fatal = true → t.rcode = s.rcode ∧ t.statusWord.extractLsb' 8 4 = s.statusWord.extractLsb' 8 4) ∧
    (t.fatal = false → t.fcause = s.fcause ∧ t.fcmd = s.fcmd ∧
      (t.rcode = .ok ∧ t.statusWord.extractLsb' 8 4 = (0 : BitVec 4) ∨
        (t.rcode = .notFound ∧ t.statusWord.extractLsb' 8 4 = (1 : BitVec 4) ∧ ∃ c, i = .anlookup c) ∨
        (t.rcode = .invalidChar ∧ t.statusWord.extractLsb' 8 4 = (2 : BitVec 4) ∧ i = .segalnum)))

/-- 10_state.md R35: `RES` is written only by the nine commands listed, and by none that raises a fatal error. -/
def Obligations.ResWrittenOnlyByItsCommands : Prop :=
  ∀ (i : Instr) (s t : State), s.fatal = false → exec i s = .next t →
    (i.op ∉ [Op.bscap, .bscount, .anlookup, .digits, .segnum, .segalnum, .segtext, .segdatabits, .seglenbits] ∨
      t.fatal = true) → t.res = s.res

/-- 10_state.md R34, 20_memory.md R70: no command writes `ARG` or `TXT`. -/
def Obligations.CommandsKeepArgAndText : Prop :=
  ∀ (i : Instr) (s t : State), exec i s = .next t → t.arg = s.arg ∧ t.txt = s.txt ∧ ∀ a, t.txt.read a = s.txt.read a

/-- 10_state.md R38: no command reads `RCODE` or `FCAUSE`: run with other values in them, it ends the same way, with the
same state but for those two fields. -/
def Obligations.StatusFieldsAreNotRead : Prop :=
  ∀ (i : Instr) (s : State) (rc : ResultCode) (fc : Option FatalCause),
    (∀ t, exec i s = .next t → ∃ rc' fc', exec i { s with rcode := rc, fcause := fc } =
      .next { t with rcode := rc', fcause := fc' }) ∧
    (∀ f, exec i s = .fault f → exec i { s with rcode := rc, fcause := fc } = .fault f)

/-! ## bit_stream_buffer -/

/-- 40_bitstream.md R140: `BSNEW`. `L` is `ARG` bits rounded up to whole bytes. -/
def Obligations.BsnewCreatesZeroedStream : Prop :=
  ∀ (s : State) (len : Nat), s.fatal = false → len = (s.arg.toNat + 7) / 8 →
    (Config.params.bufMax < len →
      exec .bsnew s = .next { s with fatal := true, fcause := some .resourceLimit, fcmd := 0x01000000 }) ∧
    (len ≤ Config.params.bufMax → ∃ m,
      exec .bsnew s = .next { s with bsLen := len, bsCur := 0, bsRem := 8, buf := m, rcode := .ok } ∧
      (∀ a < len, m.read a = some 0) ∧ ∀ a, len ≤ a → m.read a = s.buf.read a)

/-- 40_bitstream.md R141: `BSVIEW`; `BUF` is not modified. -/
def Obligations.BsviewWrapsHostBytes : Prop :=
  ∀ s : State, s.fatal = false →
    (Config.params.bufMax < s.arg.toNat →
      exec .bsview s = .next { s with fatal := true, fcause := some .resourceLimit, fcmd := 0x02000000 }) ∧
    (s.arg.toNat ≤ Config.params.bufMax →
      exec .bsview s = .next { s with bsLen := s.arg.toNat, bsCur := 0, bsRem := 8, rcode := .ok })

/-- 40_bitstream.md R143, R144: `BSCAP` and `BSCOUNT` complete and report the exact numbers. -/
def Obligations.QueriesReportCapacityAndCount : Prop :=
  ∀ s : State, s.fatal = false → s.StreamInv Config.params →
    (∃ v : RegWord, v.toNat = 8 * s.bsLen ∧ exec .bscap s = .next { s with res := v, rcode := .ok }) ∧
    ∃ v : RegWord, v.toNat = 8 * s.bsCur + (8 - s.bsRem) ∧ exec .bscount s = .next { s with res := v, rcode := .ok }

/-- 40_bitstream.md R150, R153 to R156: the capacity check of the four writes, and the write within the current byte. -/
def Obligations.WriteFillsCurrentByte : Prop :=
  ∀ (n : Nat) (i : Instr) (v : Byte) (s : State), (n, i) ∈ [(1, Instr.wr1 v), (2, .wr2 v), (4, .wr4 v), (8, .wr8 v)] →
    s.fatal = false →
    (8 * s.bsLen < 8 * s.bsCur + (8 - s.bsRem) + n →
      exec i s = .next { s with fatal := true, fcause := some .capacityExceeded, fcmd := encode i }) ∧
    (∀ b, 8 * s.bsCur + (8 - s.bsRem) + n ≤ 8 * s.bsLen → n ≤ s.bsRem → s.buf.read s.bsCur = some b → ∃ m,
      exec i s = .next
        { s with
          buf := m
          bsCur := if n = s.bsRem then s.bsCur + 1 else s.bsCur
          bsRem := if n = s.bsRem then 8 else s.bsRem - n
          rcode := .ok } ∧
      m.read s.bsCur = some (b ||| ((v &&& BitVec.ofNat 8 (2 ^ n - 1)) <<< (s.bsRem - n))) ∧
      ∀ a, a ≠ s.bsCur → m.read a = s.buf.read a)

/-- 40_bitstream.md R151: the write that is split over two bytes. -/
def Obligations.WriteSplitsAcrossBytes : Prop :=
  ∀ (n : Nat) (i : Instr) (v : Byte) (s : State) (k : Nat) (b b' : Byte),
    (n, i) ∈ [(1, Instr.wr1 v), (2, .wr2 v), (4, .wr4 v), (8, .wr8 v)] →
    s.fatal = false → n = s.bsRem + k → 1 ≤ k → 8 * s.bsCur + (8 - s.bsRem) + n ≤ 8 * s.bsLen →
    s.buf.read s.bsCur = some b → s.buf.read (s.bsCur + 1) = some b' → ∃ m,
      exec i s = .next { s with buf := m, bsCur := s.bsCur + 1, bsRem := 8 - k, rcode := .ok } ∧
      m.read s.bsCur = some (b ||| ((v &&& BitVec.ofNat 8 (2 ^ n - 1)) >>> k)) ∧
      m.read (s.bsCur + 1) = some (b' ||| ((v &&& BitVec.ofNat 8 (2 ^ k - 1)) <<< (8 - k))) ∧
      ∀ a, a ≠ s.bsCur → a ≠ s.bsCur + 1 → m.read a = s.buf.read a

/-- The append law of 40_bitstream.md R157: at every misalignment, a write that fits completes, `count()` grows by `N`,
the `N` new stream bits are their old values OR the low `N` bits of `v`, most significant first, and every other bit of
`BUF` is unchanged. -/
def Obligations.WriteAppendsLowBits : Prop :=
  ∀ (n : Nat) (i : Instr) (v : Byte) (s : State), (n, i) ∈ [(1, Instr.wr1 v), (2, .wr2 v), (4, .wr4 v), (8, .wr8 v)] →
    s.fatal = false → s.CursorInv → s.count + n ≤ s.capacity → s.touchesWritten n →
    ∃ m cur rem, exec i s = .next { s with buf := m, bsCur := cur, bsRem := rem, rcode := .ok } ∧
      8 * cur + (8 - rem) = s.count + n ∧
      (∀ j < n, streamBit m (s.count + j) = (streamBit s.buf (s.count + j)).map (· || v.getLsbD (n - 1 - j))) ∧
      ∀ p, p < s.count ∨ s.count + n ≤ p → streamBit m p = streamBit s.buf p

/-- 93 U3, 92 D45: a write that fits and would OR into a byte that was never written stops the model. -/
def Obligations.UnwrittenStreamByteStops : Prop :=
  ∀ (n : Nat) (i : Instr) (v : Byte) (s : State), (n, i) ∈ [(1, Instr.wr1 v), (2, .wr2 v), (4, .wr4 v), (8, .wr8 v)] →
    s.CursorInv → s.count + n ≤ s.capacity → ¬s.touchesWritten n → exec i s = .fault .unwrittenBuf

/-- 40_bitstream.md R158: the writes of `WRBITS(w, x)` have widths 8, 4, 2 and 1 in descending order that sum to `w`,
their number is `(w div 8) + popcount(w mod 8)`, the least that any such widths reach, and the bits they append are
`x mod 2^w`, most significant first. -/
def Obligations.WrbitsDecomposition : Prop :=
  ∀ w x : Nat,
    (∀ c ∈ chunks w x, c.1 ∈ [8, 4, 2, 1]) ∧ ((chunks w x).map Prod.fst).Pairwise (· ≥ ·) ∧
    ((chunks w x).map Prod.fst).sum = w ∧
    (chunks w x).length = w / 8 + (w % 8 / 4 + w % 4 / 2 + w % 2) ∧
    (∀ ws : List Nat, (∀ q ∈ ws, q ∈ [8, 4, 2, 1]) → ws.sum = w → (chunks w x).length ≤ ws.length) ∧
    ((chunks w x).map fun c => fieldBits (c.1, c.2.toNat)).flatten = fieldBits (w, x)

/-! ## alphanumeric_lut and digit_counter -/

/-- 41_lut_digits.md R180, R181: `ANLOOKUP` gives the position of the character in the alphabet's string, or all ones
with `NOT_FOUND`. -/
def Obligations.AnlookupFollowsAlphabet : Prop :=
  ∀ (c : Byte) (s : State) (abc : List Nat), s.fatal = false →
    abc = "0123456789ABCDEFGHIJKLMNOPQRSTUVWXYZ $%*+-./:".toList.map Char.toNat →
    (∀ k, abc[k]? = some c.toNat →
      exec (.anlookup c) s = .next { s with res := BitVec.ofNat 64 k, rcode := .ok }) ∧
    (c.toNat ∉ abc → exec (.anlookup c) s = .next { s with res := BitVec.allOnes 64, rcode := .notFound })

/-- 41_lut_digits.md R182: the table and the branch form of the lookup agree on every byte. -/
def Obligations.LookupFormulationsAgree : Prop := ∀ c : Byte, lut c = lutBranch c

/-- 41_lut_digits.md R183: each code 0 to 44 has exactly one character, and there are no other codes. -/
def Obligations.EachCodeHasOneCharacter : Prop :=
  (∀ k < 45, ∃ c, lut c = some k ∧ ∀ c', lut c' = some k → c' = c) ∧ ∀ c k, lut c = some k → k < 45

/-- 41_lut_digits.md R190, R191: `DIGITS` gives the `d` in 1 to 20 with `10^(d-1) <= ARG < 10^d` (1 for 0). -/
def Obligations.DigitsCountsDecimalDigits : Prop :=
  ∀ s : State, s.fatal = false → ∃ d, 1 ≤ d ∧ d ≤ 20 ∧ s.arg.toNat < 10 ^ d ∧ (d = 1 ∨ 10 ^ (d - 1) ≤ s.arg.toNat) ∧
    exec .digits s = .next { s with res := BitVec.ofNat 64 d, rcode := .ok }

/-- 41_lut_digits.md R192: the comparator form of the digit counter agrees with rule R190 on the whole domain. -/
def Obligations.DigitCountersAgree : Prop := ∀ n : RegWord, digitCount n.toNat = digitCountComparators n.toNat

/-! ## qr_segment_encoder: construction -/

/-- 42_segment.md R211, R212: `SEGNUM` stores the decimal digits of `ARG`, most significant first. -/
def Obligations.SegnumStoresDigits : Prop :=
  ∀ s : State, s.fatal = false → ∃ d m, 1 ≤ d ∧ d ≤ 20 ∧ s.arg.toNat < 10 ^ d ∧
    (d = 1 ∨ 10 ^ (d - 1) ≤ s.arg.toNat) ∧
    exec .segnum s = .next
      { s with
        segMode := some .numeric
        segLen := d
        seg := m
        segCount := s.segCount + 1
        res := BitVec.ofNat 64 d
        rcode := .ok } ∧
    (∀ i < d, m.read i = some (BitVec.ofNat 8 (s.arg.toNat / 10 ^ (d - 1 - i) % 10))) ∧
    ∀ i, d ≤ i → m.read i = s.seg.read i

/-- 42_segment.md R216: `SEGALNUM` checks the sizes first, then stores the codes of the whole text, or reports the first
character outside the alphabet and leaves no segment. -/
def Obligations.SegalnumAllOrNothing : Prop :=
  ∀ (s : State) (n : Nat), s.fatal = false → n = s.arg.toNat →
    (Config.params.txtMax < n ∨ Config.params.segMax < n →
      exec .segalnum s = .next { s with fatal := true, fcause := some .resourceLimit, fcmd := 0x31000000 }) ∧
    (∀ code : Nat → Nat, n ≤ Config.params.txtMax → n ≤ Config.params.segMax →
      (∀ i < n, ∃ b, s.txt.read i = some b ∧ lut b = some (code i)) → ∃ m,
      exec .segalnum s = .next
        { s with
          segMode := some .alnum
          segLen := n
          seg := m
          segCount := s.segCount + 1
          res := BitVec.ofNat 64 n
          rcode := .ok } ∧
      (∀ i < n, m.read i = some (BitVec.ofNat 8 (code i))) ∧ ∀ i, n ≤ i → m.read i = s.seg.read i) ∧
    (∀ j b, n ≤ Config.params.txtMax → n ≤ Config.params.segMax → j < n →
      (∀ i < j, ∃ c k, s.txt.read i = some c ∧ lut c = some k) → s.txt.read j = some b → lut b = none →
      exec .segalnum s = .next
        { s with
          segMode := none
          segLen := 0
          segCount := s.segCount + 1
          res := BitVec.ofNat 64 j
          rcode := .invalidChar })

/-- 42_segment.md R220: `SEGTEXT`. A text length above `TXT_MAX` is `RESOURCE_LIMIT` before any byte of the text is looked
at, written or not; else the repaired text (`REPAIR`, stated by `RepairReplacesIllFormedUnits`) is stored, unless it is
longer than `SEG_MAX`. MODEL'S CHOICE (log 6): a length that does not fit `RES` leaves a free value there. -/
def Obligations.SegtextStoresRepairedText : Prop :=
  ∀ (s : State) (n : Nat), s.fatal = false → n = s.arg.toNat →
    (Config.params.txtMax < n →
      exec .segtext s = .next { s with fatal := true, fcause := some .resourceLimit, fcmd := 0x32000000 }) ∧
    ∀ text out : List Byte, n ≤ Config.params.txtMax → text.length = n → (∀ i < n, s.txt.read i = text[i]?) →
      out = repair Config.params text →
      (Config.params.segMax < out.length →
        exec .segtext s = .next { s with fatal := true, fcause := some .resourceLimit, fcmd := 0x32000000 }) ∧
      (out.length ≤ Config.params.segMax → ∃ m v,
        exec .segtext s = .next
          { s with
            segMode := some .byte
            segLen := out.length
            seg := m
            segCount := s.segCount + 1
            res := v
            rcode := .ok } ∧
        (out.length < 2 ^ 64 → v.toNat = out.length) ∧
        (∀ i < out.length, m.read i = out[i]?) ∧ ∀ i, out.length ≤ i → m.read i = s.seg.read i)

/-- 93 U3, 92 D45: a text constructor that comes to a `TXT` byte that was never written stops the model; `SEGALNUM` comes
to it only past valid characters (log 10). -/
def Obligations.UnwrittenTextStops : Prop :=
  ∀ (s : State) (j : Nat), s.arg.toNat ≤ Config.params.txtMax → j < s.arg.toNat → s.txt.read j = none →
    exec .segtext s = .fault .unwrittenTxt ∧
    (s.arg.toNat ≤ Config.params.segMax → (∀ i < j, ∃ c k, s.txt.read i = some c ∧ lut c = some k) →
      exec .segalnum s = .fault .unwrittenTxt)

/-- 42_segment.md R222, for any parameters: a well-formed sequence is copied, an ill-formed unit becomes the placeholder
under `PER_BYTE`, and under `PER_RUN` a run of them becomes one (stated at the last unit of the run: the rule puts it out
at the first, which gives the same bytes). -/
def Obligations.RepairReplacesIllFormedUnits : Prop :=
  ∀ p : Params, repair p [] = [] ∧
    (∀ t k, k = wellFormedLength t → 0 < k → repair p t = t.take k ++ repair p (t.drop k)) ∧
    (∀ b t, wellFormedLength (b :: t) = 0 →
      (p.runPolicy = .perByte → repair p (b :: t) = p.placeholder ++ repair p t) ∧
      (p.runPolicy = .perRun →
        (t = [] ∨ 0 < wellFormedLength t → repair p (b :: t) = p.placeholder ++ repair p t) ∧
        (t ≠ [] → wellFormedLength t = 0 → repair p (b :: t) = repair p t)))

/-- 42_segment.md R221 against a second source, in both directions: the UTF-8 encoding of every Unicode scalar value is
well formed with exactly its own length, whatever follows it, and what is well formed is the encoding of a scalar value
(so no surrogate, overlong or truncated sequence is); bytes 80-C1 and F5-FF start none. -/
def Obligations.ScalarEncodingsAreWellFormed : Prop :=
  (∀ (c : Char) (rest : List Byte),
    wellFormedLength ((String.utf8EncodeChar c).map (fun u => u.toBitVec) ++ rest) = c.utf8Size) ∧
  (∀ t : List Byte, 0 < wellFormedLength t →
    ∃ c : Char, t.take (wellFormedLength t) = (String.utf8EncodeChar c).map (fun u => u.toBitVec)) ∧
  (∀ (b : Byte) (t : List Byte), 0x80 ≤ b.toNat ∧ b.toNat ≤ 0xC1 ∨ 0xF5 ≤ b.toNat → wellFormedLength (b :: t) = 0) ∧
  ∀ t, wellFormedLength t ≤ t.length ∧ wellFormedLength t ≤ 4

/-- 42_segment.md R210: the frame of the constructors. None touches the stream, `ARG`, `TXT` or a byte of `BUF`; of `SEG`
only the elements of the new segment are written. -/
def Obligations.ConstructorsFrame : Prop :=
  ∀ (i : Instr) (s t : State), i ∈ [Instr.segnum, .segalnum, .segtext] → exec i s = .next t →
    t.arg = s.arg ∧ t.bsLen = s.bsLen ∧ t.bsCur = s.bsCur ∧ t.bsRem = s.bsRem ∧
    (∀ a, t.buf.read a = s.buf.read a) ∧ (∀ a, t.txt.read a = s.txt.read a) ∧
    (∀ a, t.segLen ≤ a → t.seg.read a = s.seg.read a) ∧
    t.pending = s.pending ∧ t.readData = s.readData ∧ t.resetCount = s.resetCount

/-! ## qr_segment_encoder: sizing -/

/-- 42_segment.md R225, R226: `SEGDATABITS`. MODEL'S CHOICE (log 6): a number of bits that does not fit `RES` leaves a
free value there. -/
def Obligations.SegdatabitsReportsPayloadSize : Prop :=
  ∀ s : State, s.fatal = false →
    (s.segMode = none →
      exec .segdatabits s = .next { s with fatal := true, fcause := some .unrecognizedMode, fcmd := 0x38000000 }) ∧
    (s.segMode ≠ none → ∃ v bits : Nat, ∃ r : RegWord, v = s.segLen ∧
      (s.segMode = some .numeric →
        (∀ q, v = 3 * q → bits = 10 * q) ∧ (∀ q, v = 3 * q + 1 → bits = 10 * q + 4) ∧
        ∀ q, v = 3 * q + 2 → bits = 10 * q + 7) ∧
      (s.segMode = some .alnum → (∀ q, v = 2 * q → bits = 11 * q) ∧ ∀ q, v = 2 * q + 1 → bits = 11 * q + 6) ∧
      (s.segMode = some .byte → bits = 8 * v) ∧
      (bits < 2 ^ 64 → r.toNat = bits) ∧ exec .segdatabits s = .next { s with res := r, rcode := .ok })

/-- 42_segment.md R228, R229: `SEGLENBITS v`, with the bands 1 to 9, 10 to 26, 27 to 40. -/
def Obligations.SeglenbitsReportsFieldWidth : Prop :=
  ∀ (s : State) (v : Byte), s.fatal = false →
    (s.segMode = none → exec (.seglenbits v) s =
      .next { s with fatal := true, fcause := some .unrecognizedMode, fcmd := encode (.seglenbits v) }) ∧
    (∀ m, s.segMode = some m →
      (v.toNat < 1 ∨ 40 < v.toNat → exec (.seglenbits v) s =
        .next { s with fatal := true, fcause := some .invalidVersion, fcmd := encode (.seglenbits v) }) ∧
      (1 ≤ v.toNat → v.toNat ≤ 9 → exec (.seglenbits v) s =
        .next { s with res := (match m with | .numeric => 10 | .alnum => 9 | .byte => 8), rcode := .ok }) ∧
      (10 ≤ v.toNat → v.toNat ≤ 26 → exec (.seglenbits v) s =
        .next { s with res := (match m with | .numeric => 12 | .alnum => 11 | .byte => 16), rcode := .ok }) ∧
      (27 ≤ v.toNat → v.toNat ≤ 40 → exec (.seglenbits v) s =
        .next { s with res := (match m with | .numeric => 14 | .alnum => 13 | .byte => 16), rcode := .ok }))

/-- The frame of the commands that only report (10_state.md R35): nothing changes but `RES`, `STATUS` and `FCMD`. -/
def Obligations.ReportingCommandsFrame : Prop :=
  ∀ (i : Instr) (s t : State),
    i.op ∈ [Op.bscap, .bscount, .anlookup, .digits, .segdatabits, .seglenbits] → exec i s = .next t →
    t = { s with res := t.res, rcode := t.rcode, fatal := t.fatal, fcause := t.fcause, fcmd := t.fcmd } ∧
    (∀ a, t.buf.read a = s.buf.read a) ∧ (∀ a, t.txt.read a = s.txt.read a) ∧ ∀ a, t.seg.read a = s.seg.read a

/-! ## qr_segment_encoder: encoding -/

/-- 42_segment.md R235 with R231 and R238: `SEGENCODE v`. Its checks in their order: mode, version, capacity of the whole
field sequence. A segment that fits is appended as a whole: the stream grows by the mode indicator (4 bits), the length
field (`SEG_LEN mod 2^W` in `W` bits) and the payload fields of R232 to R234, each bit ORed in at its place; no other bit
of `BUF` and no other state but `RCODE` and the cursor changes. -/
def Obligations.SegencodeAppendsSegment : Prop :=
  ∀ (s : State) (v : Byte), s.fatal = false →
    (s.segMode = none → exec (.segencode v) s =
      .next { s with fatal := true, fcause := some .unrecognizedMode, fcmd := encode (.segencode v) }) ∧
    (s.segMode ≠ none → v.toNat < 1 ∨ 40 < v.toNat → exec (.segencode v) s =
      .next { s with fatal := true, fcause := some .invalidVersion, fcmd := encode (.segencode v) }) ∧
    (s.segMode ≠ none → 1 ≤ v.toNat → v.toNat ≤ 40 → ∃ m b, s.segMode = some m ∧ bandOf v.toNat = some b ∧
      (s.capacity < s.count + (4 + lengthBits m b + dataBits m s.segLen) → exec (.segencode v) s =
        .next { s with fatal := true, fcause := some .capacityExceeded, fcmd := encode (.segencode v) }) ∧
      ∀ es : List Byte, ∀ bits : List Bool,
        s.CursorInv → es.length = s.segLen → (∀ i < s.segLen, s.seg.read i = es[i]?) →
        bits = fieldBits (4, tag m) ++ fieldBits (lengthBits m b, s.segLen) ++ fieldsBits (payloadFields m es) →
        s.count + bits.length ≤ s.capacity → s.touchesWritten bits.length →
        bits.length = 4 + lengthBits m b + dataBits m s.segLen ∧
        ∃ buf cur rem, exec (.segencode v) s = .next { s with buf := buf, bsCur := cur, bsRem := rem, rcode := .ok } ∧
          8 * cur + (8 - rem) = s.count + bits.length ∧
          (∀ j x, bits[j]? = some x → streamBit buf (s.count + j) = (streamBit s.buf (s.count + j)).map (· || x)) ∧
          ∀ p, p < s.count ∨ s.count + bits.length ≤ p → streamBit buf p = streamBit s.buf p)

/-- 42_segment.md R236: `SEGPAYLOAD`. Its checks in their order: mode, capacity. A payload that fits is appended alone. -/
def Obligations.SegpayloadAppendsPayload : Prop :=
  ∀ s : State, s.fatal = false →
    (s.segMode = none → exec .segpayload s =
      .next { s with fatal := true, fcause := some .unrecognizedMode, fcmd := 0x3B000000 }) ∧
    ∀ m, s.segMode = some m →
      (s.capacity < s.count + dataBits m s.segLen → exec .segpayload s =
        .next { s with fatal := true, fcause := some .capacityExceeded, fcmd := 0x3B000000 }) ∧
      ∀ es : List Byte, ∀ bits : List Bool,
        s.CursorInv → es.length = s.segLen → (∀ i < s.segLen, s.seg.read i = es[i]?) →
        bits = fieldsBits (payloadFields m es) → s.count + bits.length ≤ s.capacity → s.touchesWritten bits.length →
        bits.length = dataBits m s.segLen ∧
        ∃ buf cur rem, exec .segpayload s = .next { s with buf := buf, bsCur := cur, bsRem := rem, rcode := .ok } ∧
          8 * cur + (8 - rem) = s.count + bits.length ∧
          (∀ j x, bits[j]? = some x → streamBit buf (s.count + j) = (streamBit s.buf (s.count + j)).map (· || x)) ∧
          ∀ p, p < s.count ∨ s.count + bits.length ≤ p → streamBit buf p = streamBit s.buf p

/-- 42_segment.md R230, R232 to R234: the mode tags, the fields of each payload (width and value) by the spec's own
expressions, group by group, and that for elements in range every value fits its width, so no payload bit is dropped.
The tag values rest on the spec's general knowledge (93 U6, log 12). -/
def Obligations.PayloadFieldsAndTags : Prop :=
  (tag .numeric = 0b0001 ∧ tag .alnum = 0b0010 ∧ tag .byte = 0b0100) ∧
  (payloadFields .numeric [] = [] ∧ (∀ d₀ : Byte, payloadFields .numeric [d₀] = [(4, d₀.toNat)]) ∧
    (∀ d₀ d₁ : Byte, payloadFields .numeric [d₀, d₁] = [(7, 10 * d₀.toNat + d₁.toNat)]) ∧
    ∀ (d₀ d₁ d₂ : Byte) (ds : List Byte), payloadFields .numeric (d₀ :: d₁ :: d₂ :: ds) =
      (10, 100 * d₀.toNat + 10 * d₁.toNat + d₂.toNat) :: payloadFields .numeric ds) ∧
  (payloadFields .alnum [] = [] ∧ (∀ c₀ : Byte, payloadFields .alnum [c₀] = [(6, c₀.toNat)]) ∧
    ∀ (c₀ c₁ : Byte) (cs : List Byte), payloadFields .alnum (c₀ :: c₁ :: cs) =
      (11, 45 * c₀.toNat + c₁.toNat) :: payloadFields .alnum cs) ∧
  (∀ es : List Byte, payloadFields .byte es = es.map fun e => (8, e.toNat)) ∧
  ∀ (m : Mode) (es : List Byte), (m = .numeric → ∀ e ∈ es, e.toNat ≤ 9) → (m = .alnum → ∀ e ∈ es, e.toNat ≤ 44) →
    (∀ f ∈ payloadFields m es, f.2 < 2 ^ f.1) ∧ ((payloadFields m es).map Prod.fst).sum = dataBits m es.length

/-- 93 U3, 92 D45: an encoder whose bits fit, but reach a `BUF` byte that was never written, stops the model. -/
def Obligations.UnwrittenEncodeTargetStops : Prop :=
  ∀ (s : State) (v : Byte) (m : Mode) (b : Band), s.CursorInv → s.segMode = some m →
    (∀ i < s.segLen, (s.seg.read i).isSome) →
    (bandOf v.toNat = some b → s.count + (4 + lengthBits m b + dataBits m s.segLen) ≤ s.capacity →
      ¬s.touchesWritten (4 + lengthBits m b + dataBits m s.segLen) → exec (.segencode v) s = .fault .unwrittenBuf) ∧
    (s.count + dataBits m s.segLen ≤ s.capacity → ¬s.touchesWritten (dataBits m s.segLen) →
      exec .segpayload s = .fault .unwrittenBuf)

/-- 42_segment.md R237: two streams whose bits from `count()` on are 0 (a fresh own buffer, or a view the host zeroed), at
the same `count()`, get the same bits from the same segment: where `SEGENCODE v` completes on the one it completes on the
other, and the bits beyond the new `count()` are still 0. -/
def Obligations.EncodingIsReproducible : Prop :=
  ∀ (s₁ s₂ t₁ : State) (v : Byte), s₁.fatal = false → s₂.fatal = false →
    s₁.CursorInv → s₂.CursorInv →
    s₁.segMode = s₂.segMode → s₁.segLen = s₂.segLen → (∀ i < s₁.segLen, s₁.seg.read i = s₂.seg.read i) →
    s₁.count = s₂.count → s₁.bsLen = s₂.bsLen →
    (∀ p, s₁.count ≤ p → p < s₁.capacity → streamBit s₁.buf p = some false ∧ streamBit s₂.buf p = some false) →
    exec (.segencode v) s₁ = .next t₁ → t₁.fatal = false →
    ∃ t₂, exec (.segencode v) s₂ = .next t₂ ∧ t₂.fatal = false ∧ t₁.count = t₂.count ∧
    (∀ p, s₁.count ≤ p → p < s₁.capacity → streamBit t₁.buf p = streamBit t₂.buf p) ∧
    ∀ p, t₁.count ≤ p → p < s₁.capacity → streamBit t₁.buf p = some false

/-- 42_segment.md R239, 70_reset_and_hazards.md R302, for any parameters: a stream created by `BSNEW` with exactly the bits
that `SEGLENBITS v` and `SEGDATABITS` add up to (plus the 4 of the mode indicator) takes the whole segment and leaves it as it was. -/
def Obligations.SizedStreamTakesSegment : Prop :=
  ∀ (p : Params) (s : State) (v : Byte) (m : Mode) (b : Band), s.fatal = false → s.segMode = some m →
    bandOf v.toNat = some b → (∀ i < s.segLen, (s.seg.read i).isSome) →
    s.arg.toNat = 4 + lengthBits m b + dataBits m s.segLen → (s.arg.toNat + 7) / 8 ≤ p.bufMax →
    ∃ t u, bsnew p s = .ok t ∧ exec (.segencode v) t = .next u ∧ u.fatal = false ∧ u.rcode = .ok ∧
      u.count = s.arg.toNat ∧ u.segMode = s.segMode ∧ u.segLen = s.segLen ∧ ∀ i, u.seg.read i = s.seg.read i

/-- 70_reset_and_hazards.md R313, 42_segment.md R210: the constructors copied their input, so what stands in `TXT` or
`ARG` afterwards makes no difference to an encoder. -/
def Obligations.EncodersDoNotReadTextOrArg : Prop :=
  ∀ (i : Instr) (s : State) (txt : Memory) (arg : RegWord), i.op ∈ [Op.segencode, .segpayload] →
    (∀ t, exec i s = .next t → exec i { s with txt := txt, arg := arg } = .next { t with txt := txt, arg := arg }) ∧
    ∀ f, exec i s = .fault f → exec i { s with txt := txt, arg := arg } = .fault f

/-- The frame of the commands that write the stream (40_bitstream.md R152; 42_segment.md R235, R236): nothing changes but
the cursor, `STATUS`, `FCMD` and `BUF`; a byte of `BUF` changes only if one of the appended stream positions, from the
old `count()` up to the new one, lies in it, and never outside `BUF[0 .. BS_LEN-1]`. -/
def Obligations.StreamWritersFrame : Prop :=
  ∀ (i : Instr) (s t : State), i.op ∈ [Op.wr1, .wr2, .wr4, .wr8, .segencode, .segpayload] →
    s.CursorInv → exec i s = .next t →
    t = { s with
      buf := t.buf, bsCur := t.bsCur, bsRem := t.bsRem, rcode := t.rcode, fatal := t.fatal, fcause := t.fcause
      fcmd := t.fcmd } ∧
    (∀ a, (∀ p, s.count ≤ p → p < t.count → p / 8 ≠ a) → t.buf.read a = s.buf.read a) ∧
    (∀ a, s.bsLen ≤ a → t.buf.read a = s.buf.read a) ∧
    (∀ a, t.txt.read a = s.txt.read a) ∧ ∀ a, t.seg.read a = s.seg.read a

/-- The frame of the commands that create a stream (40_bitstream.md R140 to R142): the segment, `ARG`, `RES` and `TXT` are
unchanged; `BSNEW` writes no byte of `BUF` at or beyond the new length, and `BSVIEW` none at all. -/
def Obligations.StreamCreatorsFrame : Prop :=
  ∀ (i : Instr) (s t : State), i ∈ [Instr.bsnew, .bsview] → exec i s = .next t →
    t = { s with
      bsLen := t.bsLen, bsCur := t.bsCur, bsRem := t.bsRem, buf := t.buf, rcode := t.rcode, fatal := t.fatal
      fcause := t.fcause, fcmd := t.fcmd } ∧
    (∀ a, (i = .bsnew → t.bsLen ≤ a ∨ t.fatal = true ∧ s.fatal = false) → t.buf.read a = s.buf.read a) ∧
    (∀ a, t.txt.read a = s.txt.read a) ∧ ∀ a, t.seg.read a = s.seg.read a

/-! ## Invariants -/

/-- The state after reset meets the invariants of 10_state.md R43, R46, R48, R36 and of the byte spaces. -/
def Obligations.ResetMeetsInvariant : Prop := State.reset.Inv Config.params

/-- Every step keeps them: the stream invariants R43, with (4) `count() <= capacity()`, the segment invariants R46 and R48,
`FCAUSE` and `FCMD` clear while the core runs (R36, R39), and the canonical form and size of the byte spaces (20_memory.md
R70, R73). -/
def Obligations.StepKeepsInvariant : Prop :=
  ∀ s t : State, s.Inv Config.params → step s = .next t → t.Inv Config.params ∧ t.count ≤ t.capacity

/-- 10_state.md R44: `count()` by the cursor, full exactly at the end of the buffer, and the bit misalignment, in every state
that meets the cursor invariants. -/
def Obligations.FullExactlyAtTheEnd : Prop :=
  ∀ s : State, s.CursorInv →
    s.count = 8 * s.bsCur + (8 - s.bsRem) ∧ s.count ≤ 8 * s.bsLen ∧ (s.count = 8 * s.bsLen ↔ s.bsCur = s.bsLen) ∧
    s.count % 8 = 8 - s.bsRem ∧ (8 ∣ s.count ↔ s.bsRem = 8)
end

