-- ==== Sys2Proof/Laws/Memory.lean ====
section
/-! SUPPORT. The laws of the byte spaces: read after write, what each operation leaves alone, and the canonical form. -/

namespace Sys2Proof.Machine.Memory

@[simp] theorem read_nil (a : Nat) : Memory.read [] a = none := rfl

theorem read_cons (k : Nat) (b : Byte) (m : Memory) (a : Nat) :
    Memory.read ((k, b) :: m) a = if k = a then some b else m.read a := rfl

theorem read_write_same (m : Memory) (a : Nat) (v : Byte) : (m.write a v).read a = some v := by
  induction m with
  | nil => simp [write, read]
  | cons c m ih =>
    obtain ⟨k, b⟩ := c
    unfold write
    split
    · simp [read]
    · split
      · simp [read]
      · have : k ≠ a := by omega
        simp [read, this, ih]

theorem read_write_other (m : Memory) {a a' : Nat} (v : Byte) (h : a' ≠ a) :
    (m.write a v).read a' = m.read a' := by
  induction m with
  | nil => simp [write, read, h.symm]
  | cons c m ih =>
    obtain ⟨k, b⟩ := c
    unfold write
    split
    · simp [read, h.symm]
    · split
      · next hk => subst hk; simp [read, h.symm]
      · simp [read, ih]

/-- One equation for a read after a write. -/
@[simp] theorem read_write (m : Memory) (a a' : Nat) (v : Byte) :
    (m.write a v).read a' = if a' = a then some v else m.read a' := by
  split
  · next h => rw [h, read_write_same]
  · next h => exact read_write_other m v h

theorem mem_write {m : Memory} {a : Nat} {v : Byte} {c : Host.Cell} (h : c ∈ m.write a v) : c = (a, v) ∨ c ∈ m := by
  induction m with
  | nil => simpa [write] using h
  | cons d m ih =>
    obtain ⟨k, b⟩ := d
    unfold write at h
    split at h
    · simpa using h
    · split at h
      · rcases List.mem_cons.1 h with h | h
        · exact .inl h
        · exact .inr (List.mem_cons_of_mem _ h)
      · rcases List.mem_cons.1 h with h | h
        · exact .inr (h ▸ List.mem_cons_self)
        · exact (ih h).imp_right (List.mem_cons_of_mem _)

/-- A write keeps the canonical form. -/
theorem wf_write {m : Memory} (h : m.wf) (a : Nat) (v : Byte) : (m.write a v).wf := by
  induction m with
  | nil => simp [write, wf]
  | cons c m ih =>
    obtain ⟨k, b⟩ := c
    obtain ⟨hk, hm⟩ := List.pairwise_cons.1 h
    unfold write
    split
    · next hlt =>
      refine List.pairwise_cons.2 ⟨fun c hc => ?_, h⟩
      rcases List.mem_cons.1 hc with rfl | hc
      · exact hlt
      · exact Nat.lt_trans hlt (hk c hc)
    · split
      · next heq => subst heq; exact List.pairwise_cons.2 ⟨hk, hm⟩
      · refine List.pairwise_cons.2 ⟨fun c hc => ?_, ih hm⟩
        rcases mem_write hc with rfl | hc
        · show k < a; omega
        · exact hk c hc

theorem read_fillZero (m : Memory) (n a : Nat) :
    (m.fillZero n).read a = if a < n then some 0 else m.read a := by
  induction n with
  | zero => simp [fillZero]
  | succ n ih =>
    simp only [fillZero, read_write, ih]
    split_ifs <;> first | rfl | omega

theorem wf_fillZero {m : Memory} (h : m.wf) (n : Nat) : (m.fillZero n).wf := by
  induction n with
  | zero => exact h
  | succ n ih => exact wf_write ih n 0

theorem read_store (bs : List Byte) (m : Memory) (a i : Nat) :
    (m.store a bs).read i = if a ≤ i ∧ i < a + bs.length then bs[i - a]? else m.read i := by
  induction bs generalizing m a with
  | nil => rw [if_neg (by simp only [List.length_nil]; omega)]; rfl
  | cons b bs ih =>
    simp only [store, ih, read_write, List.length_cons]
    by_cases h : i = a
    · subst h
      rw [if_neg (by omega), if_pos rfl, if_pos (by omega)]; simp
    · by_cases h3 : a + 1 ≤ i ∧ i < a + 1 + bs.length
      · rw [if_pos h3, if_pos (by omega), show i - a = (i - (a + 1)) + 1 by omega, List.getElem?_cons_succ]
      · rw [if_neg h3, if_neg h, if_neg (by omega)]

theorem wf_store {m : Memory} (h : m.wf) (bs : List Byte) (a : Nat) : (m.store a bs).wf := by
  induction bs generalizing m a with
  | nil => exact h
  | cons b bs ih => exact ih (wf_write h a b) (a + 1)

/-- A load that succeeds gives the bytes as they are read one by one. -/
theorem load_some {m : Memory} {a n : Nat} {bs : List Byte} (h : m.load a n = some bs) :
    bs.length = n ∧ ∀ i < n, m.read (a + i) = bs[i]? := by
  induction n generalizing a bs with
  | zero => simp only [load, Option.some.injEq] at h; subst h; simp
  | succ n ih =>
    unfold load at h
    split at h
    · next b bs' hb hbs =>
      simp only [Option.some.injEq] at h; subst h
      obtain ⟨hl, hr⟩ := ih hbs
      refine ⟨by simp [hl], fun i hi => ?_⟩
      cases i with
      | zero => simpa using hb
      | succ i =>
        have := hr i (by omega)
        rw [List.getElem?_cons_succ, ← this]; congr 1; omega
    · simp at h

/-- A load of written bytes succeeds. -/
theorem load_isSome {m : Memory} {a n : Nat} (h : ∀ i < n, (m.read (a + i)).isSome) : ∃ bs, m.load a n = some bs := by
  induction n generalizing a with
  | zero => exact ⟨[], rfl⟩
  | succ n ih =>
    obtain ⟨b, hb⟩ := Option.isSome_iff_exists.1 (by simpa using h 0 (by omega))
    obtain ⟨bs, hbs⟩ := ih (a := a + 1) fun i hi => by
      have := h (i + 1) (by omega)
      rwa [show a + (i + 1) = a + 1 + i by omega] at this
    exact ⟨b :: bs, by simp [load, hb, hbs]⟩

/-- A load fails only over a byte that was never written. -/
theorem load_none {m : Memory} {a n : Nat} (h : m.load a n = none) : ∃ i < n, m.read (a + i) = none := by
  by_contra hc
  push Not at hc
  obtain ⟨bs, hbs⟩ := load_isSome (m := m) (a := a) (n := n) fun i hi => Option.isSome_iff_ne_none.2 (hc i hi)
  simp [h] at hbs

end Sys2Proof.Machine.Memory
end

