-- ==== Sys2Proof/Laws/State.lean ====
section
/-! SUPPORT. For each register update and each field of the state, what the field holds after the update. -/

namespace Sys2Proof.Machine.State

@[simp] theorem setRcode_arg (s : State) (rc : ResultCode) : (s.setRcode rc).arg = s.arg := rfl
@[simp] theorem setRcode_res (s : State) (rc : ResultCode) : (s.setRcode rc).res = s.res := rfl
@[simp] theorem setRcode_fatal (s : State) (rc : ResultCode) : (s.setRcode rc).fatal = s.fatal := rfl
@[simp] theorem setRcode_fcause (s : State) (rc : ResultCode) : (s.setRcode rc).fcause = s.fcause := rfl
@[simp] theorem setRcode_rcode (s : State) (rc : ResultCode) : (s.setRcode rc).rcode = rc := rfl
@[simp] theorem setRcode_fcmd (s : State) (rc : ResultCode) : (s.setRcode rc).fcmd = s.fcmd := rfl
@[simp] theorem setRcode_bsLen (s : State) (rc : ResultCode) : (s.setRcode rc).bsLen = s.bsLen := rfl
@[simp] theorem setRcode_bsCur (s : State) (rc : ResultCode) : (s.setRcode rc).bsCur = s.bsCur := rfl
@[simp] theorem setRcode_bsRem (s : State) (rc : ResultCode) : (s.setRcode rc).bsRem = s.bsRem := rfl
@[simp] theorem setRcode_segMode (s : State) (rc : ResultCode) : (s.setRcode rc).segMode = s.segMode := rfl
@[simp] theorem setRcode_segLen (s : State) (rc : ResultCode) : (s.setRcode rc).segLen = s.segLen := rfl
@[simp] theorem setRcode_buf (s : State) (rc : ResultCode) : (s.setRcode rc).buf = s.buf := rfl
@[simp] theorem setRcode_txt (s : State) (rc : ResultCode) : (s.setRcode rc).txt = s.txt := rfl
@[simp] theorem setRcode_seg (s : State) (rc : ResultCode) : (s.setRcode rc).seg = s.seg := rfl
@[simp] theorem setRcode_pending (s : State) (rc : ResultCode) : (s.setRcode rc).pending = s.pending := rfl
@[simp] theorem setRcode_readData (s : State) (rc : ResultCode) : (s.setRcode rc).readData = s.readData := rfl
@[simp] theorem setRcode_resetCount (s : State) (rc : ResultCode) : (s.setRcode rc).resetCount = s.resetCount := rfl
@[simp] theorem setRcode_segCount (s : State) (rc : ResultCode) : (s.setRcode rc).segCount = s.segCount := rfl

@[simp] theorem setRes_arg (s : State) (v : RegWord) : (s.setRes v).arg = s.arg := rfl
@[simp] theorem setRes_res (s : State) (v : RegWord) : (s.setRes v).res = v := rfl
@[simp] theorem setRes_fatal (s : State) (v : RegWord) : (s.setRes v).fatal = s.fatal := rfl
@[simp] theorem setRes_fcause (s : State) (v : RegWord) : (s.setRes v).fcause = s.fcause := rfl
@[simp] theorem setRes_rcode (s : State) (v : RegWord) : (s.setRes v).rcode = s.rcode := rfl
@[simp] theorem setRes_fcmd (s : State) (v : RegWord) : (s.setRes v).fcmd = s.fcmd := rfl
@[simp] theorem setRes_bsLen (s : State) (v : RegWord) : (s.setRes v).bsLen = s.bsLen := rfl
@[simp] theorem setRes_bsCur (s : State) (v : RegWord) : (s.setRes v).bsCur = s.bsCur := rfl
@[simp] theorem setRes_bsRem (s : State) (v : RegWord) : (s.setRes v).bsRem = s.bsRem := rfl
@[simp] theorem setRes_segMode (s : State) (v : RegWord) : (s.setRes v).segMode = s.segMode := rfl
@[simp] theorem setRes_segLen (s : State) (v : RegWord) : (s.setRes v).segLen = s.segLen := rfl
@[simp] theorem setRes_buf (s : State) (v : RegWord) : (s.setRes v).buf = s.buf := rfl
@[simp] theorem setRes_txt (s : State) (v : RegWord) : (s.setRes v).txt = s.txt := rfl
@[simp] theorem setRes_seg (s : State) (v : RegWord) : (s.setRes v).seg = s.seg := rfl
@[simp] theorem setRes_pending (s : State) (v : RegWord) : (s.setRes v).pending = s.pending := rfl
@[simp] theorem setRes_readData (s : State) (v : RegWord) : (s.setRes v).readData = s.readData := rfl
@[simp] theorem setRes_resetCount (s : State) (v : RegWord) : (s.setRes v).resetCount = s.resetCount := rfl
@[simp] theorem setRes_segCount (s : State) (v : RegWord) : (s.setRes v).segCount = s.segCount := rfl

@[simp] theorem setArg_arg (s : State) (v : RegWord) : (s.setArg v).arg = v := rfl
@[simp] theorem setArg_res (s : State) (v : RegWord) : (s.setArg v).res = s.res := rfl
@[simp] theorem setArg_fatal (s : State) (v : RegWord) : (s.setArg v).fatal = s.fatal := rfl
@[simp] theorem setArg_fcause (s : State) (v : RegWord) : (s.setArg v).fcause = s.fcause := rfl
@[simp] theorem setArg_rcode (s : State) (v : RegWord) : (s.setArg v).rcode = s.rcode := rfl
@[simp] theorem setArg_fcmd (s : State) (v : RegWord) : (s.setArg v).fcmd = s.fcmd := rfl
@[simp] theorem setArg_bsLen (s : State) (v : RegWord) : (s.setArg v).bsLen = s.bsLen := rfl
@[simp] theorem setArg_bsCur (s : State) (v : RegWord) : (s.setArg v).bsCur = s.bsCur := rfl
@[simp] theorem setArg_bsRem (s : State) (v : RegWord) : (s.setArg v).bsRem = s.bsRem := rfl
@[simp] theorem setArg_segMode (s : State) (v : RegWord) : (s.setArg v).segMode = s.segMode := rfl
@[simp] theorem setArg_segLen (s : State) (v : RegWord) : (s.setArg v).segLen = s.segLen := rfl
@[simp] theorem setArg_buf (s : State) (v : RegWord) : (s.setArg v).buf = s.buf := rfl
@[simp] theorem setArg_txt (s : State) (v : RegWord) : (s.setArg v).txt = s.txt := rfl
@[simp] theorem setArg_seg (s : State) (v : RegWord) : (s.setArg v).seg = s.seg := rfl
@[simp] theorem setArg_pending (s : State) (v : RegWord) : (s.setArg v).pending = s.pending := rfl
@[simp] theorem setArg_readData (s : State) (v : RegWord) : (s.setArg v).readData = s.readData := rfl
@[simp] theorem setArg_resetCount (s : State) (v : RegWord) : (s.setArg v).resetCount = s.resetCount := rfl
@[simp] theorem setArg_segCount (s : State) (v : RegWord) : (s.setArg v).segCount = s.segCount := rfl

@[simp] theorem setBuf_arg (s : State) (m : Memory) : (s.setBuf m).arg = s.arg := rfl
@[simp] theorem setBuf_res (s : State) (m : Memory) : (s.setBuf m).res = s.res := rfl
@[simp] theorem setBuf_fatal (s : State) (m : Memory) : (s.setBuf m).fatal = s.fatal := rfl
@[simp] theorem setBuf_fcause (s : State) (m : Memory) : (s.setBuf m).fcause = s.fcause := rfl
@[simp] theorem setBuf_rcode (s : State) (m : Memory) : (s.setBuf m).rcode = s.rcode := rfl
@[simp] theorem setBuf_fcmd (s : State) (m : Memory) : (s.setBuf m).fcmd = s.fcmd := rfl
@[simp] theorem setBuf_bsLen (s : State) (m : Memory) : (s.setBuf m).bsLen = s.bsLen := rfl
@[simp] theorem setBuf_bsCur (s : State) (m : Memory) : (s.setBuf m).bsCur = s.bsCur := rfl
@[simp] theorem setBuf_bsRem (s : State) (m : Memory) : (s.setBuf m).bsRem = s.bsRem := rfl
@[simp] theorem setBuf_segMode (s : State) (m : Memory) : (s.setBuf m).segMode = s.segMode := rfl
@[simp] theorem setBuf_segLen (s : State) (m : Memory) : (s.setBuf m).segLen = s.segLen := rfl
@[simp] theorem setBuf_buf (s : State) (m : Memory) : (s.setBuf m).buf = m := rfl
@[simp] theorem setBuf_txt (s : State) (m : Memory) : (s.setBuf m).txt = s.txt := rfl
@[simp] theorem setBuf_seg (s : State) (m : Memory) : (s.setBuf m).seg = s.seg := rfl
@[simp] theorem setBuf_pending (s : State) (m : Memory) : (s.setBuf m).pending = s.pending := rfl
@[simp] theorem setBuf_readData (s : State) (m : Memory) : (s.setBuf m).readData = s.readData := rfl
@[simp] theorem setBuf_resetCount (s : State) (m : Memory) : (s.setBuf m).resetCount = s.resetCount := rfl
@[simp] theorem setBuf_segCount (s : State) (m : Memory) : (s.setBuf m).segCount = s.segCount := rfl

@[simp] theorem setTxt_arg (s : State) (m : Memory) : (s.setTxt m).arg = s.arg := rfl
@[simp] theorem setTxt_res (s : State) (m : Memory) : (s.setTxt m).res = s.res := rfl
@[simp] theorem setTxt_fatal (s : State) (m : Memory) : (s.setTxt m).fatal = s.fatal := rfl
@[simp] theorem setTxt_fcause (s : State) (m : Memory) : (s.setTxt m).fcause = s.fcause := rfl
@[simp] theorem setTxt_rcode (s : State) (m : Memory) : (s.setTxt m).rcode = s.rcode := rfl
@[simp] theorem setTxt_fcmd (s : State) (m : Memory) : (s.setTxt m).fcmd = s.fcmd := rfl
@[simp] theorem setTxt_bsLen (s : State) (m : Memory) : (s.setTxt m).bsLen = s.bsLen := rfl
@[simp] theorem setTxt_bsCur (s : State) (m : Memory) : (s.setTxt m).bsCur = s.bsCur := rfl
@[simp] theorem setTxt_bsRem (s : State) (m : Memory) : (s.setTxt m).bsRem = s.bsRem := rfl
@[simp] theorem setTxt_segMode (s : State) (m : Memory) : (s.setTxt m).segMode = s.segMode := rfl
@[simp] theorem setTxt_segLen (s : State) (m : Memory) : (s.setTxt m).segLen = s.segLen := rfl
@[simp] theorem setTxt_buf (s : State) (m : Memory) : (s.setTxt m).buf = s.buf := rfl
@[simp] theorem setTxt_txt (s : State) (m : Memory) : (s.setTxt m).txt = m := rfl
@[simp] theorem setTxt_seg (s : State) (m : Memory) : (s.setTxt m).seg = s.seg := rfl
@[simp] theorem setTxt_pending (s : State) (m : Memory) : (s.setTxt m).pending = s.pending := rfl
@[simp] theorem setTxt_readData (s : State) (m : Memory) : (s.setTxt m).readData = s.readData := rfl
@[simp] theorem setTxt_resetCount (s : State) (m : Memory) : (s.setTxt m).resetCount = s.resetCount := rfl
@[simp] theorem setTxt_segCount (s : State) (m : Memory) : (s.setTxt m).segCount = s.segCount := rfl

@[simp] theorem setCursor_arg (s : State) (cur rem : Nat) : (s.setCursor cur rem).arg = s.arg := rfl
@[simp] theorem setCursor_res (s : State) (cur rem : Nat) : (s.setCursor cur rem).res = s.res := rfl
@[simp] theorem setCursor_fatal (s : State) (cur rem : Nat) : (s.setCursor cur rem).fatal = s.fatal := rfl
@[simp] theorem setCursor_fcause (s : State) (cur rem : Nat) : (s.setCursor cur rem).fcause = s.fcause := rfl
@[simp] theorem setCursor_rcode (s : State) (cur rem : Nat) : (s.setCursor cur rem).rcode = s.rcode := rfl
@[simp] theorem setCursor_fcmd (s : State) (cur rem : Nat) : (s.setCursor cur rem).fcmd = s.fcmd := rfl
@[simp] theorem setCursor_bsLen (s : State) (cur rem : Nat) : (s.setCursor cur rem).bsLen = s.bsLen := rfl
@[simp] theorem setCursor_bsCur (s : State) (cur rem : Nat) : (s.setCursor cur rem).bsCur = cur := rfl
@[simp] theorem setCursor_bsRem (s : State) (cur rem : Nat) : (s.setCursor cur rem).bsRem = rem := rfl
@[simp] theorem setCursor_segMode (s : State) (cur rem : Nat) : (s.setCursor cur rem).segMode = s.segMode := rfl
@[simp] theorem setCursor_segLen (s : State) (cur rem : Nat) : (s.setCursor cur rem).segLen = s.segLen := rfl
@[simp] theorem setCursor_buf (s : State) (cur rem : Nat) : (s.setCursor cur rem).buf = s.buf := rfl
@[simp] theorem setCursor_txt (s : State) (cur rem : Nat) : (s.setCursor cur rem).txt = s.txt := rfl
@[simp] theorem setCursor_seg (s : State) (cur rem : Nat) : (s.setCursor cur rem).seg = s.seg := rfl
@[simp] theorem setCursor_pending (s : State) (cur rem : Nat) : (s.setCursor cur rem).pending = s.pending := rfl
@[simp] theorem setCursor_readData (s : State) (cur rem : Nat) : (s.setCursor cur rem).readData = s.readData := rfl
@[simp] theorem setCursor_resetCount (s : State) (cur rem : Nat) : (s.setCursor cur rem).resetCount = s.resetCount := rfl
@[simp] theorem setCursor_segCount (s : State) (cur rem : Nat) : (s.setCursor cur rem).segCount = s.segCount := rfl

@[simp] theorem openStream_arg (s : State) (len : Nat) : (s.openStream len).arg = s.arg := rfl
@[simp] theorem openStream_res (s : State) (len : Nat) : (s.openStream len).res = s.res := rfl
@[simp] theorem openStream_fatal (s : State) (len : Nat) : (s.openStream len).fatal = s.fatal := rfl
@[simp] theorem openStream_fcause (s : State) (len : Nat) : (s.openStream len).fcause = s.fcause := rfl
@[simp] theorem openStream_rcode (s : State) (len : Nat) : (s.openStream len).rcode = s.rcode := rfl
@[simp] theorem openStream_fcmd (s : State) (len : Nat) : (s.openStream len).fcmd = s.fcmd := rfl
@[simp] theorem openStream_bsLen (s : State) (len : Nat) : (s.openStream len).bsLen = len := rfl
@[simp] theorem openStream_bsCur (s : State) (len : Nat) : (s.openStream len).bsCur = 0 := rfl
@[simp] theorem openStream_bsRem (s : State) (len : Nat) : (s.openStream len).bsRem = 8 := rfl
@[simp] theorem openStream_segMode (s : State) (len : Nat) : (s.openStream len).segMode = s.segMode := rfl
@[simp] theorem openStream_segLen (s : State) (len : Nat) : (s.openStream len).segLen = s.segLen := rfl
@[simp] theorem openStream_buf (s : State) (len : Nat) : (s.openStream len).buf = s.buf := rfl
@[simp] theorem openStream_txt (s : State) (len : Nat) : (s.openStream len).txt = s.txt := rfl
@[simp] theorem openStream_seg (s : State) (len : Nat) : (s.openStream len).seg = s.seg := rfl
@[simp] theorem openStream_pending (s : State) (len : Nat) : (s.openStream len).pending = s.pending := rfl
@[simp] theorem openStream_readData (s : State) (len : Nat) : (s.openStream len).readData = s.readData := rfl
@[simp] theorem openStream_resetCount (s : State) (len : Nat) : (s.openStream len).resetCount = s.resetCount := rfl
@[simp] theorem openStream_segCount (s : State) (len : Nat) : (s.openStream len).segCount = s.segCount := rfl

@[simp] theorem setSegment_arg (s : State) (m : Mode) (es : List Byte) : (s.setSegment m es).arg = s.arg := rfl
@[simp] theorem setSegment_res (s : State) (m : Mode) (es : List Byte) : (s.setSegment m es).res = s.res := rfl
@[simp] theorem setSegment_fatal (s : State) (m : Mode) (es : List Byte) : (s.setSegment m es).fatal = s.fatal := rfl
@[simp] theorem setSegment_fcause (s : State) (m : Mode) (es : List Byte) : (s.setSegment m es).fcause = s.fcause := rfl
@[simp] theorem setSegment_rcode (s : State) (m : Mode) (es : List Byte) : (s.setSegment m es).rcode = s.rcode := rfl
@[simp] theorem setSegment_fcmd (s : State) (m : Mode) (es : List Byte) : (s.setSegment m es).fcmd = s.fcmd := rfl
@[simp] theorem setSegment_bsLen (s : State) (m : Mode) (es : List Byte) : (s.setSegment m es).bsLen = s.bsLen := rfl
@[simp] theorem setSegment_bsCur (s : State) (m : Mode) (es : List Byte) : (s.setSegment m es).bsCur = s.bsCur := rfl
@[simp] theorem setSegment_bsRem (s : State) (m : Mode) (es : List Byte) : (s.setSegment m es).bsRem = s.bsRem := rfl
@[simp] theorem setSegment_segMode (s : State) (m : Mode) (es : List Byte) : (s.setSegment m es).segMode = some m := rfl
@[simp] theorem setSegment_segLen (s : State) (m : Mode) (es : List Byte) : (s.setSegment m es).segLen = es.length := rfl
@[simp] theorem setSegment_buf (s : State) (m : Mode) (es : List Byte) : (s.setSegment m es).buf = s.buf := rfl
@[simp] theorem setSegment_txt (s : State) (m : Mode) (es : List Byte) : (s.setSegment m es).txt = s.txt := rfl
@[simp] theorem setSegment_seg (s : State) (m : Mode) (es : List Byte) : (s.setSegment m es).seg = s.seg.store 0 es := rfl
@[simp] theorem setSegment_pending (s : State) (m : Mode) (es : List Byte) : (s.setSegment m es).pending = s.pending := rfl
@[simp] theorem setSegment_readData (s : State) (m : Mode) (es : List Byte) : (s.setSegment m es).readData = s.readData := rfl
@[simp] theorem setSegment_resetCount (s : State) (m : Mode) (es : List Byte) : (s.setSegment m es).resetCount = s.resetCount := rfl
@[simp] theorem setSegment_segCount (s : State) (m : Mode) (es : List Byte) : (s.setSegment m es).segCount = s.segCount + 1 := rfl

@[simp] theorem dropSegment_arg (s : State) : (s.dropSegment).arg = s.arg := rfl
@[simp] theorem dropSegment_res (s : State) : (s.dropSegment).res = s.res := rfl
@[simp] theorem dropSegment_fatal (s : State) : (s.dropSegment).fatal = s.fatal := rfl
@[simp] theorem dropSegment_fcause (s : State) : (s.dropSegment).fcause = s.fcause := rfl
@[simp] theorem dropSegment_rcode (s : State) : (s.dropSegment).rcode = s.rcode := rfl
@[simp] theorem dropSegment_fcmd (s : State) : (s.dropSegment).fcmd = s.fcmd := rfl
@[simp] theorem dropSegment_bsLen (s : State) : (s.dropSegment).bsLen = s.bsLen := rfl
@[simp] theorem dropSegment_bsCur (s : State) : (s.dropSegment).bsCur = s.bsCur := rfl
@[simp] theorem dropSegment_bsRem (s : State) : (s.dropSegment).bsRem = s.bsRem := rfl
@[simp] theorem dropSegment_segMode (s : State) : (s.dropSegment).segMode = none := rfl
@[simp] theorem dropSegment_segLen (s : State) : (s.dropSegment).segLen = 0 := rfl
@[simp] theorem dropSegment_buf (s : State) : (s.dropSegment).buf = s.buf := rfl
@[simp] theorem dropSegment_txt (s : State) : (s.dropSegment).txt = s.txt := rfl
@[simp] theorem dropSegment_seg (s : State) : (s.dropSegment).seg = s.seg := rfl
@[simp] theorem dropSegment_pending (s : State) : (s.dropSegment).pending = s.pending := rfl
@[simp] theorem dropSegment_readData (s : State) : (s.dropSegment).readData = s.readData := rfl
@[simp] theorem dropSegment_resetCount (s : State) : (s.dropSegment).resetCount = s.resetCount := rfl
@[simp] theorem dropSegment_segCount (s : State) : (s.dropSegment).segCount = s.segCount + 1 := rfl

@[simp] theorem setPending_arg (s : State) (l : List HostAccess) : (s.setPending l).arg = s.arg := rfl
@[simp] theorem setPending_res (s : State) (l : List HostAccess) : (s.setPending l).res = s.res := rfl
@[simp] theorem setPending_fatal (s : State) (l : List HostAccess) : (s.setPending l).fatal = s.fatal := rfl
@[simp] theorem setPending_fcause (s : State) (l : List HostAccess) : (s.setPending l).fcause = s.fcause := rfl
@[simp] theorem setPending_rcode (s : State) (l : List HostAccess) : (s.setPending l).rcode = s.rcode := rfl
@[simp] theorem setPending_fcmd (s : State) (l : List HostAccess) : (s.setPending l).fcmd = s.fcmd := rfl
@[simp] theorem setPending_bsLen (s : State) (l : List HostAccess) : (s.setPending l).bsLen = s.bsLen := rfl
@[simp] theorem setPending_bsCur (s : State) (l : List HostAccess) : (s.setPending l).bsCur = s.bsCur := rfl
@[simp] theorem setPending_bsRem (s : State) (l : List HostAccess) : (s.setPending l).bsRem = s.bsRem := rfl
@[simp] theorem setPending_segMode (s : State) (l : List HostAccess) : (s.setPending l).segMode = s.segMode := rfl
@[simp] theorem setPending_segLen (s : State) (l : List HostAccess) : (s.setPending l).segLen = s.segLen := rfl
@[simp] theorem setPending_buf (s : State) (l : List HostAccess) : (s.setPending l).buf = s.buf := rfl
@[simp] theorem setPending_txt (s : State) (l : List HostAccess) : (s.setPending l).txt = s.txt := rfl
@[simp] theorem setPending_seg (s : State) (l : List HostAccess) : (s.setPending l).seg = s.seg := rfl
@[simp] theorem setPending_pending (s : State) (l : List HostAccess) : (s.setPending l).pending = l := rfl
@[simp] theorem setPending_readData (s : State) (l : List HostAccess) : (s.setPending l).readData = s.readData := rfl
@[simp] theorem setPending_resetCount (s : State) (l : List HostAccess) : (s.setPending l).resetCount = s.resetCount := rfl
@[simp] theorem setPending_segCount (s : State) (l : List HostAccess) : (s.setPending l).segCount = s.segCount := rfl

@[simp] theorem setReadData_arg (s : State) (v : RegWord) : (s.setReadData v).arg = s.arg := rfl
@[simp] theorem setReadData_res (s : State) (v : RegWord) : (s.setReadData v).res = s.res := rfl
@[simp] theorem setReadData_fatal (s : State) (v : RegWord) : (s.setReadData v).fatal = s.fatal := rfl
@[simp] theorem setReadData_fcause (s : State) (v : RegWord) : (s.setReadData v).fcause = s.fcause := rfl
@[simp] theorem setReadData_rcode (s : State) (v : RegWord) : (s.setReadData v).rcode = s.rcode := rfl
@[simp] theorem setReadData_fcmd (s : State) (v : RegWord) : (s.setReadData v).fcmd = s.fcmd := rfl
@[simp] theorem setReadData_bsLen (s : State) (v : RegWord) : (s.setReadData v).bsLen = s.bsLen := rfl
@[simp] theorem setReadData_bsCur (s : State) (v : RegWord) : (s.setReadData v).bsCur = s.bsCur := rfl
@[simp] theorem setReadData_bsRem (s : State) (v : RegWord) : (s.setReadData v).bsRem = s.bsRem := rfl
@[simp] theorem setReadData_segMode (s : State) (v : RegWord) : (s.setReadData v).segMode = s.segMode := rfl
@[simp] theorem setReadData_segLen (s : State) (v : RegWord) : (s.setReadData v).segLen = s.segLen := rfl
@[simp] theorem setReadData_buf (s : State) (v : RegWord) : (s.setReadData v).buf = s.buf := rfl
@[simp] theorem setReadData_txt (s : State) (v : RegWord) : (s.setReadData v).txt = s.txt := rfl
@[simp] theorem setReadData_seg (s : State) (v : RegWord) : (s.setReadData v).seg = s.seg := rfl
@[simp] theorem setReadData_pending (s : State) (v : RegWord) : (s.setReadData v).pending = s.pending := rfl
@[simp] theorem setReadData_readData (s : State) (v : RegWord) : (s.setReadData v).readData = v := rfl
@[simp] theorem setReadData_resetCount (s : State) (v : RegWord) : (s.setReadData v).resetCount = s.resetCount := rfl
@[simp] theorem setReadData_segCount (s : State) (v : RegWord) : (s.setReadData v).segCount = s.segCount := rfl

@[simp] theorem takeFatal_arg (s : State) (c : FatalCause) (w : CommandWord) : (s.takeFatal c w).arg = s.arg := rfl
@[simp] theorem takeFatal_res (s : State) (c : FatalCause) (w : CommandWord) : (s.takeFatal c w).res = s.res := rfl
@[simp] theorem takeFatal_fatal (s : State) (c : FatalCause) (w : CommandWord) : (s.takeFatal c w).fatal = true := rfl
@[simp] theorem takeFatal_fcause (s : State) (c : FatalCause) (w : CommandWord) : (s.takeFatal c w).fcause = some c := rfl
@[simp] theorem takeFatal_rcode (s : State) (c : FatalCause) (w : CommandWord) : (s.takeFatal c w).rcode = s.rcode := rfl
@[simp] theorem takeFatal_fcmd (s : State) (c : FatalCause) (w : CommandWord) : (s.takeFatal c w).fcmd = w := rfl
@[simp] theorem takeFatal_bsLen (s : State) (c : FatalCause) (w : CommandWord) : (s.takeFatal c w).bsLen = s.bsLen := rfl
@[simp] theorem takeFatal_bsCur (s : State) (c : FatalCause) (w : CommandWord) : (s.takeFatal c w).bsCur = s.bsCur := rfl
@[simp] theorem takeFatal_bsRem (s : State) (c : FatalCause) (w : CommandWord) : (s.takeFatal c w).bsRem = s.bsRem := rfl
@[simp] theorem takeFatal_segMode (s : State) (c : FatalCause) (w : CommandWord) : (s.takeFatal c w).segMode = s.segMode := rfl
@[simp] theorem takeFatal_segLen (s : State) (c : FatalCause) (w : CommandWord) : (s.takeFatal c w).segLen = s.segLen := rfl
@[simp] theorem takeFatal_buf (s : State) (c : FatalCause) (w : CommandWord) : (s.takeFatal c w).buf = s.buf := rfl
@[simp] theorem takeFatal_txt (s : State) (c : FatalCause) (w : CommandWord) : (s.takeFatal c w).txt = s.txt := rfl
@[simp] theorem takeFatal_seg (s : State) (c : FatalCause) (w : CommandWord) : (s.takeFatal c w).seg = s.seg := rfl
@[simp] theorem takeFatal_pending (s : State) (c : FatalCause) (w : CommandWord) : (s.takeFatal c w).pending = s.pending := rfl
@[simp] theorem takeFatal_readData (s : State) (c : FatalCause) (w : CommandWord) : (s.takeFatal c w).readData = s.readData := rfl
@[simp] theorem takeFatal_resetCount (s : State) (c : FatalCause) (w : CommandWord) : (s.takeFatal c w).resetCount = s.resetCount := rfl
@[simp] theorem takeFatal_segCount (s : State) (c : FatalCause) (w : CommandWord) : (s.takeFatal c w).segCount = s.segCount := rfl

@[simp] theorem restart_arg (s : State) : (s.restart).arg = 0 := rfl
@[simp] theorem restart_res (s : State) : (s.restart).res = 0 := rfl
@[simp] theorem restart_fatal (s : State) : (s.restart).fatal = false := rfl
@[simp] theorem restart_fcause (s : State) : (s.restart).fcause = none := rfl
@[simp] theorem restart_rcode (s : State) : (s.restart).rcode = .ok := rfl
@[simp] theorem restart_fcmd (s : State) : (s.restart).fcmd = 0 := rfl
@[simp] theorem restart_bsLen (s : State) : (s.restart).bsLen = 0 := rfl
@[simp] theorem restart_bsCur (s : State) : (s.restart).bsCur = 0 := rfl
@[simp] theorem restart_bsRem (s : State) : (s.restart).bsRem = 8 := rfl
@[simp] theorem restart_segMode (s : State) : (s.restart).segMode = none := rfl
@[simp] theorem restart_segLen (s : State) : (s.restart).segLen = 0 := rfl
@[simp] theorem restart_buf (s : State) : (s.restart).buf = [] := rfl
@[simp] theorem restart_txt (s : State) : (s.restart).txt = [] := rfl
@[simp] theorem restart_seg (s : State) : (s.restart).seg = [] := rfl
@[simp] theorem restart_pending (s : State) : (s.restart).pending = s.pending := rfl
@[simp] theorem restart_readData (s : State) : (s.restart).readData = s.readData := rfl
@[simp] theorem restart_resetCount (s : State) : (s.restart).resetCount = s.resetCount + 1 := rfl
@[simp] theorem restart_segCount (s : State) : (s.restart).segCount = 0 := rfl

end Sys2Proof.Machine.State
end

