-- ==== Sys2Proof/Laws/Ops.lean ====
section
/-! SUPPORT. What each shared operation can do: how a command ends, the OR into a byte, `WRITE`, a sequence of writes. -/

namespace Sys2Proof.Machine

/-! ## How a command ends -/

@[simp] theorem conclude_ok (w : CommandWord) (s t : State) : conclude w s (.ok t) = .next t := rfl

@[simp] theorem conclude_fatal (w : CommandWord) (s : State) (c : FatalCause) :
    conclude w s (.error (.fatal c)) = .next (s.takeFatal c w) := rfl

@[simp] theorem conclude_unknown (w : CommandWord) (s : State) (f : Fault) :
    conclude w s (.error (.unknown f)) = .fault f := rfl

/-- A command that leaves a next state completed, or took the fault entry from the state before it. -/
theorem conclude_next {w : CommandWord} {s t : State} {e : Effect} (h : conclude w s e = .next t) :
    e = .ok t ∨ ∃ c, e = .error (.fatal c) ∧ t = s.takeFatal c w := by
  match e with
  | .ok _ => exact .inl (by simpa [conclude] using h)
  | .error (.fatal c) => exact .inr ⟨c, rfl, by simpa [conclude] using h.symm⟩
  | .error (.unknown _) => simp [conclude] at h

/-- A command that stops the model met an access it cannot follow. -/
theorem conclude_fault {w : CommandWord} {s : State} {e : Effect} {f : Fault} (h : conclude w s e = .fault f) :
    e = .error (.unknown f) := by
  match e with
  | .ok _ => simp [conclude] at h
  | .error (.fatal _) => simp [conclude] at h
  | .error (.unknown _) => simpa [conclude] using h

/-- No command is refused. -/
theorem conclude_not_refused (w : CommandWord) (s : State) (e : Effect) (r : Refusal) :
    conclude w s e ≠ .refused r := by
  match e with
  | .ok _ => simp [conclude]
  | .error (.fatal _) => simp [conclude]
  | .error (.unknown _) => simp [conclude]

/-! ## Sequencing -/

@[simp] theorem Effect.ok_bind {α β : Type} (a : α) (f : α → Except Stop β) : ((Except.ok a : Except Stop α) >>= f) = f a := rfl

@[simp] theorem Effect.error_bind {α β : Type} (e : Stop) (f : α → Except Stop β) :
    ((Except.error e : Except Stop α) >>= f) = .error e := rfl

@[simp] theorem Effect.pure_eq {α : Type} (a : α) : (pure a : Except Stop α) = .ok a := rfl

/-- A sequence succeeds exactly when both its parts do. -/
theorem Effect.bind_ok {α β : Type} {x : Except Stop α} {f : α → Except Stop β} {b : β} :
    (x >>= f) = .ok b ↔ ∃ a, x = .ok a ∧ f a = .ok b := by
  cases x <;> simp

/-- A sequence fails where its first part does, or else its second. -/
theorem Effect.bind_error {α β : Type} {x : Except Stop α} {f : α → Except Stop β} {e : Stop} :
    (x >>= f) = .error e ↔ x = .error e ∨ ∃ a, x = .ok a ∧ f a = .error e := by
  cases x <;> simp

/-! ## The OR into a byte -/

theorem orByte_some {m : Memory} {a : Nat} {b : Byte} (h : m.read a = some b) (x : Byte) :
    orByte m a x = .ok (m.write a (b ||| x)) := by simp [orByte, h]

theorem orByte_none {m : Memory} {a : Nat} (h : m.read a = none) (x : Byte) :
    orByte m a x = .error (.unknown .unwrittenBuf) := by simp [orByte, h]

theorem orByte_ok {m m' : Memory} {a : Nat} {x : Byte} (h : orByte m a x = .ok m') :
    ∃ b, m.read a = some b ∧ m' = m.write a (b ||| x) := by
  cases hb : m.read a with
  | none => rw [orByte_none hb] at h; cases h
  | some b => rw [orByte_some hb] at h; cases h; exact ⟨b, rfl, rfl⟩

/-! ## `WRITE` -/

/-- The capacity check of 40_bitstream.md R150. -/
theorem write_full {n : Nat} {s : State} (h : s.capacity < s.count + n) (v : Byte) :
    write n v s = .error (.fatal .capacityExceeded) := by simp [write, h]

/-- A write within the current byte, in one equation (40_bitstream.md R150). -/
theorem write_within {n : Nat} {s : State} {b : Byte} (hc : s.count + n ≤ s.capacity) (hn : n ≤ s.bsRem)
    (hb : s.buf.read s.bsCur = some b) (v : Byte) :
    write n v s = .ok ((s.setBuf (s.buf.write s.bsCur (b ||| (lowBits n v <<< (s.bsRem - n))))).setCursor
      (if n = s.bsRem then s.bsCur + 1 else s.bsCur) (if n = s.bsRem then 8 else s.bsRem - n)) := by
  rw [write, if_neg (by omega), if_pos hn, writeWithin, orByte_some hb]
  by_cases h : n = s.bsRem <;> simp [h]

/-- A write split over two bytes, in one equation (40_bitstream.md R151). -/
theorem write_across {n : Nat} {s : State} {b b' : Byte} (hc : s.count + n ≤ s.capacity) (hn : s.bsRem < n)
    (hb : s.buf.read s.bsCur = some b) (hb' : s.buf.read (s.bsCur + 1) = some b') (v : Byte) :
    write n v s = .ok ((s.setBuf ((s.buf.write s.bsCur (b ||| (lowBits n v >>> (n - s.bsRem)))).write (s.bsCur + 1)
      (b' ||| ((lowBits n v &&& mask (n - s.bsRem)) <<< (8 - (n - s.bsRem)))))).setCursor
      (s.bsCur + 1) (8 - (n - s.bsRem))) := by
  rw [write, if_neg (by omega), if_neg (by omega), writeAcross, orByte_some hb]
  simp only [Effect.ok_bind]
  rw [orByte_some (by simpa using hb')]
  rfl

/-- Everything a `WRITE` that succeeds can do. -/
theorem write_ok {n : Nat} {v : Byte} {s t : State} (h : write n v s = .ok t) :
    s.count + n ≤ s.capacity ∧
    ((n ≤ s.bsRem ∧ ∃ b, s.buf.read s.bsCur = some b ∧
        t = (s.setBuf (s.buf.write s.bsCur (b ||| (lowBits n v <<< (s.bsRem - n))))).setCursor
          (if n = s.bsRem then s.bsCur + 1 else s.bsCur) (if n = s.bsRem then 8 else s.bsRem - n)) ∨
      (s.bsRem < n ∧ ∃ b b', s.buf.read s.bsCur = some b ∧ s.buf.read (s.bsCur + 1) = some b' ∧
        t = (s.setBuf ((s.buf.write s.bsCur (b ||| (lowBits n v >>> (n - s.bsRem)))).write (s.bsCur + 1)
          (b' ||| ((lowBits n v &&& mask (n - s.bsRem)) <<< (8 - (n - s.bsRem)))))).setCursor
          (s.bsCur + 1) (8 - (n - s.bsRem)))) := by
  by_cases hc : s.capacity < s.count + n
  · rw [write_full hc] at h; cases h
  have hc' : s.count + n ≤ s.capacity := by omega
  refine ⟨hc', ?_⟩
  by_cases hn : n ≤ s.bsRem
  · refine .inl ⟨hn, ?_⟩
    cases hb : s.buf.read s.bsCur with
    | none => rw [write, if_neg hc, if_pos hn, writeWithin, orByte_none hb] at h; cases h
    | some b => rw [write_within hc' hn hb] at h; cases h; exact ⟨b, rfl, rfl⟩
  · refine .inr ⟨by omega, ?_⟩
    cases hb : s.buf.read s.bsCur with
    | none => rw [write, if_neg hc, if_neg hn, writeAcross, orByte_none hb] at h; cases h
    | some b =>
      cases hb' : s.buf.read (s.bsCur + 1) with
      | none =>
        rw [write, if_neg hc, if_neg hn, writeAcross, orByte_some hb, Effect.ok_bind,
          orByte_none (by simpa using hb')] at h
        cases h
      | some b' => rw [write_across hc' (by omega) hb hb'] at h; cases h; exact ⟨b, b', rfl, rfl, rfl⟩

/-- A `WRITE` changes `BUF`, `BS_CUR` and `BS_REM` alone. -/
theorem write_frame {n : Nat} {v : Byte} {s t : State} (h : write n v s = .ok t) :
    t = (s.setBuf t.buf).setCursor t.bsCur t.bsRem := by
  obtain ⟨-, ⟨-, b, -, rfl⟩ | ⟨-, b, b', -, -, rfl⟩⟩ := write_ok h <;> rfl

/-- A `WRITE` does not succeed only for want of room, or over a byte that was never written. -/
theorem write_error {n : Nat} {v : Byte} {s : State} {e : Stop} (h : write n v s = .error e) :
    (s.capacity < s.count + n ∧ e = .fatal .capacityExceeded) ∨
    (s.count + n ≤ s.capacity ∧ e = .unknown .unwrittenBuf ∧
      (s.buf.read s.bsCur = none ∨ s.bsRem < n ∧ s.buf.read (s.bsCur + 1) = none)) := by
  by_cases hc : s.capacity < s.count + n
  · rw [write_full hc] at h; cases h; exact .inl ⟨hc, rfl⟩
  have hc' : s.count + n ≤ s.capacity := by omega
  refine .inr ⟨hc', ?_⟩
  cases hb : s.buf.read s.bsCur with
  | none =>
    refine ⟨?_, .inl rfl⟩
    by_cases hn : n ≤ s.bsRem
    · rw [write, if_neg hc, if_pos hn, writeWithin, orByte_none hb] at h; cases h; rfl
    · rw [write, if_neg hc, if_neg hn, writeAcross, orByte_none hb] at h; cases h; rfl
  | some b =>
    by_cases hn : n ≤ s.bsRem
    · rw [write_within hc' hn hb] at h; cases h
    · cases hb' : s.buf.read (s.bsCur + 1) with
      | none =>
        rw [write, if_neg hc, if_neg hn, writeAcross, orByte_some hb, Effect.ok_bind,
          orByte_none (by simpa using hb')] at h
        cases h
        exact ⟨rfl, .inr ⟨by omega, rfl⟩⟩
      | some b' => rw [write_across hc' (by omega) hb hb'] at h; cases h

/-- A sequence of writes changes `BUF`, `BS_CUR` and `BS_REM` alone. -/
theorem writeChunks_frame {cs : List (Nat × Byte)} {s t : State} (h : writeChunks cs s = .ok t) :
    t = (s.setBuf t.buf).setCursor t.bsCur t.bsRem := by
  induction cs generalizing s with
  | nil => cases h; rfl
  | cons c cs ih =>
    obtain ⟨u, hu, ht⟩ := Effect.bind_ok.1 h
    rw [ih ht]; rw [write_frame hu]; rfl

/-- A sequence of writes one after another. -/
theorem writeChunks_append (cs ds : List (Nat × Byte)) (s : State) :
    writeChunks (cs ++ ds) s = (writeChunks cs s >>= writeChunks ds) := by
  induction cs generalizing s with
  | nil => rfl
  | cons c cs ih =>
    show (write c.1 c.2 s >>= writeChunks (cs ++ ds)) = ((write c.1 c.2 s >>= writeChunks cs) >>= writeChunks ds)
    cases write c.1 c.2 s with
    | error e => rfl
    | ok t => exact ih t

/-! ## `WRBITS` -/

theorem widest_le {r : Nat} (h : r ≠ 0) : widest r ≤ r := by unfold widest; split_ifs <;> omega

theorem widest_mem (r : Nat) : widest r ∈ [8, 4, 2, 1] := by unfold widest; split_ifs <;> simp

/-- The widths of the writes of `WRBITS` add up to the width of the field. -/
theorem chunksFrom_widths (x : Nat) {k r : Nat} (h : r ≤ k) : ((chunksFrom x k r).map Prod.fst).sum = r := by
  induction k generalizing r with
  | zero => simp [chunksFrom]; omega
  | succ k ih =>
    unfold chunksFrom
    split
    · simp; omega
    · next h0 =>
      have := widest_le h0
      have hp : 0 < widest r := by unfold widest; split_ifs <;> omega
      rw [List.map_cons, List.sum_cons, ih (by omega)]; simp; omega

end Sys2Proof.Machine
end

