-- ==== Sys2Proof/Laws/Segment.lean ====
section
/-! SUPPORT. What the segment operations can do, the constraints of the parameters, and what every command and every step
comes to. -/

namespace Sys2Proof

/-- The parameters of this implementation meet the constraints of 00_scope.md R10. -/
theorem Config.params_valid : Config.params.Valid where
  bufMax_pos := by simp [Config.params]
  bufMax_lt := by
    have := Nat.mod_lt Config.rawBufMax (show 2 ^ 61 - 1 > 0 by norm_num)
    simp only [Config.params]; omega
  txtMax_pos := by simp [Config.params]
  segMax_ge := by simp [Config.params]
  placeholder_pos := by simp [Config.params]
  placeholder_le := by
    have := Nat.mod_lt Config.rawPlaceholderLength (show 4 > 0 by norm_num)
    simp only [Config.params, List.length_map, List.length_range]; omega

namespace Machine

theorem zext64_of_lt {v : Nat} (h : v < 2 ^ 64) : zext64 v = BitVec.ofNat 64 v := by rw [zext64, if_pos h]

theorem zext64_toNat {v : Nat} (h : v < 2 ^ 64) : (zext64 v).toNat = v := by
  rw [zext64_of_lt h, BitVec.toNat_ofNat, Nat.mod_eq_of_lt h]

/-! ## Reading the segment and the text -/

theorem elements_ok {s : State} {es : List Byte} (h : s.elements = .ok es) :
    es.length = s.segLen ∧ ∀ i < s.segLen, s.seg.read i = es[i]? := by
  unfold State.elements at h
  split at h
  · next hl => cases h; simpa using Memory.load_some hl
  · cases h

theorem elements_of_written {s : State} (h : ∀ i < s.segLen, (s.seg.read i).isSome) : ∃ es, s.elements = .ok es := by
  obtain ⟨es, he⟩ := Memory.load_isSome (m := s.seg) (a := 0) (n := s.segLen) (by simpa using h)
  exact ⟨es, by simp [State.elements, he]⟩

theorem elements_error {s : State} {e : Stop} (h : s.elements = .error e) : e = .unknown .unwrittenSeg := by
  unfold State.elements at h
  split at h <;> cases h
  rfl

theorem text_ok {s : State} {n : Nat} {t : List Byte} (h : s.text n = .ok t) :
    t.length = n ∧ ∀ i < n, s.txt.read i = t[i]? := by
  unfold State.text at h
  split at h
  · next hl => cases h; simpa using Memory.load_some hl
  · cases h

theorem text_error {s : State} {n : Nat} {e : Stop} (h : s.text n = .error e) :
    e = .unknown .unwrittenTxt ∧ ∃ i < n, s.txt.read i = none := by
  unfold State.text at h
  split at h
  · cases h
  · next hl => cases h; exact ⟨rfl, by simpa using Memory.load_none hl⟩

/-! ## The lookup and the scan -/

/-- The codes are 0 to 44 (41_lut_digits.md R180). -/
theorem lut_lt {c : Byte} {k : Nat} (h : lut c = some k) : k < 45 := by
  have : ∀ c : Byte, (lut c).all (· < 45) = true := by decide
  simpa [h] using this c

/-- A scan that gives codes read a whole text of characters of the alphabet. -/
theorem scanText_codes {m : Memory} {k i : Nat} {cs : List Byte} (h : scanText m k i = .ok (.codes cs)) :
    cs.length = k ∧ ∀ j < k, ∃ b code, m.read (i + j) = some b ∧ lut b = some code ∧
      cs[j]? = some (BitVec.ofNat 8 code) := by
  induction k generalizing i cs with
  | zero => cases h; simp
  | succ k ih =>
    unfold scanText at h
    split at h
    · cases h
    · next b hb =>
      split at h
      · cases h
      · next code hc =>
        split at h
        · next r hr =>
          cases r with
          | invalidAt _ => cases h
          | codes ds =>
            cases h
            obtain ⟨hl, hj⟩ := ih hr
            refine ⟨by simp [hl], fun j hlt => ?_⟩
            cases j with
            | zero => exact ⟨b, code, by simpa using hb, hc, by simp⟩
            | succ j =>
              obtain ⟨b', code', h1, h2, h3⟩ := hj j (by omega)
              exact ⟨b', code', by rw [← h1]; congr 1; omega, h2, by simpa using h3⟩
        · cases h

/-- A scan that stops at an invalid character read valid ones before it. -/
theorem scanText_invalid {m : Memory} {k i j : Nat} (h : scanText m k i = .ok (.invalidAt j)) :
    i ≤ j ∧ j < i + k ∧ (∃ b, m.read j = some b ∧ lut b = none) ∧
    ∀ a, i ≤ a → a < j → ∃ b code, m.read a = some b ∧ lut b = some code := by
  induction k generalizing i with
  | zero => cases h
  | succ k ih =>
    unfold scanText at h
    split at h
    · cases h
    · next b hb =>
      split at h
      · next hc => cases h; exact ⟨Nat.le_refl _, by omega, ⟨b, hb, hc⟩, by omega⟩
      · next code hc =>
        split at h
        · next r hr =>
          cases r with
          | codes _ => cases h
          | invalidAt j' =>
            cases h
            obtain ⟨h1, h2, h3, h4⟩ := ih hr
            refine ⟨by omega, by omega, h3, fun a ha hlt => ?_⟩
            by_cases hai : a = i
            · subst hai; exact ⟨b, code, hb, hc⟩
            · exact h4 a (by omega) hlt
        · cases h

/-- A scan over a text of valid characters gives their codes. -/
theorem scanText_valid {m : Memory} {k i : Nat} (code : Nat → Nat)
    (h : ∀ j < k, ∃ b, m.read (i + j) = some b ∧ lut b = some (code j)) :
    scanText m k i = .ok (.codes ((List.range k).map fun j => BitVec.ofNat 8 (code j))) := by
  induction k generalizing i code with
  | zero => rfl
  | succ k ih =>
    obtain ⟨b, hb, hc⟩ := h 0 (by omega)
    have ih' := ih (i := i + 1) (fun j => code (j + 1)) fun j hj => by
      obtain ⟨b', h1, h2⟩ := h (j + 1) (by omega)
      exact ⟨b', by rw [← h1]; congr 1; omega, h2⟩
    rw [scanText, show m.read i = some b by simpa using hb]
    simp only [hc, ih', Scan.cons, List.range_succ_eq_map, List.map_cons, List.map_map]
    rfl

/-- Where a scan over valid characters first meets something else, it ends there. -/
theorem scanText_first {m : Memory} {k i j : Nat} (hj : i ≤ j) (hk : j < i + k)
    (h : ∀ a, i ≤ a → a < j → ∃ b code, m.read a = some b ∧ lut b = some code) :
    (∀ b, m.read j = some b → lut b = none → scanText m k i = .ok (.invalidAt j)) ∧
    (m.read j = none → scanText m k i = .error (.unknown .unwrittenTxt)) := by
  induction k generalizing i with
  | zero => omega
  | succ k ih =>
    by_cases hij : i = j
    · subst hij
      exact ⟨fun b hb hc => by simp [scanText, hb, hc], fun hn => by simp [scanText, hn]⟩
    · obtain ⟨b, code, hb, hc⟩ := h i (Nat.le_refl _) (by omega)
      obtain ⟨h1, h2⟩ := ih (i := i + 1) (by omega) (by omega) fun a ha hlt => h a (by omega) hlt
      exact ⟨fun b' hb' hc' => by simp [scanText, hb, hc, h1 b' hb' hc', Scan.cons],
        fun hn => by simp [scanText, hb, hc, h2 hn]⟩

/-- A scan fails only over a byte that was never written. -/
theorem scanText_error {m : Memory} {k i : Nat} {e : Stop} (h : scanText m k i = .error e) :
    e = .unknown .unwrittenTxt := by
  induction k generalizing i with
  | zero => cases h
  | succ k ih =>
    unfold scanText at h
    split at h
    · cases h; rfl
    · split at h
      · cases h
      · split at h
        · cases h
        · next he => cases h; exact ih he

/-! ## Well-formed sequences -/

/-- A well-formed sequence is one that matches a row of the table (42_segment.md R221); with no such row the length is 0. -/
theorem wellFormedLength_cases (t : List Byte) :
    (∃ row ∈ utf8Table, startsWithRow row t = true ∧ wellFormedLength t = row.length) ∨
    (∀ row ∈ utf8Table, startsWithRow row t = false) ∧ wellFormedLength t = 0 := by
  unfold wellFormedLength
  cases h : utf8Table.find? fun row => startsWithRow row t with
  | some row =>
    have hs := List.find?_some h
    exact .inl ⟨row, List.mem_of_find?_eq_some h, hs, rfl⟩
  | none => exact .inr ⟨by simpa using List.find?_eq_none.1 h, rfl⟩

/-! ## Digits -/

theorem digitLoop_pos {k : Nat} (h : 0 < k) (n : Nat) : 1 ≤ digitLoop k n := by
  cases k with
  | zero => omega
  | succ k => unfold digitLoop; split <;> omega

theorem digitLoop_le (k n : Nat) : digitLoop k n ≤ k := by
  induction k generalizing n with
  | zero => simp [digitLoop]
  | succ k ih => unfold digitLoop; split <;> [omega; exact Nat.succ_le_succ (ih _)]

/-- With enough rounds the loop counts the decimal digits (41_lut_digits.md R190). -/
theorem digitLoop_bounds {k n : Nat} (hk : 0 < k) (h : n < 10 ^ k) :
    n < 10 ^ digitLoop k n ∧ (digitLoop k n = 1 ∨ 10 ^ (digitLoop k n - 1) ≤ n) := by
  induction k generalizing n with
  | zero => omega
  | succ k ih =>
    unfold digitLoop
    split
    · next h0 => exact ⟨by rw [pow_one]; omega, .inl rfl⟩
    · next h0 =>
      have hk' : 0 < k := by
        rcases Nat.eq_zero_or_pos k with rfl | hp
        · rw [zero_add, pow_one] at h; omega
        · exact hp
      obtain ⟨h1, h2⟩ := ih (n := n / 10) hk' (by rw [pow_succ] at h; omega)
      have hp := digitLoop_pos hk' (n / 10)
      refine ⟨by rw [pow_succ]; omega, .inr ?_⟩
      obtain ⟨d, hd⟩ : ∃ d, digitLoop k (n / 10) = d + 1 := ⟨_, (Nat.succ_pred_eq_of_pos hp).symm⟩
      rw [hd] at h2 ⊢
      simp only [Nat.add_sub_cancel, pow_succ] at h2 ⊢
      rcases h2 with h2 | h2
      · obtain rfl : d = 0 := by omega
        simp; omega
      · omega

theorem digitCount_pos (n : Nat) : 1 ≤ digitCount n := digitLoop_pos (by norm_num) n

theorem digitCount_le (n : Nat) : digitCount n ≤ 20 := digitLoop_le 20 n

theorem digitCount_bounds (v : RegWord) :
    v.toNat < 10 ^ digitCount v.toNat ∧ (digitCount v.toNat = 1 ∨ 10 ^ (digitCount v.toNat - 1) ≤ v.toNat) :=
  digitLoop_bounds (by norm_num) (Nat.lt_trans v.isLt (by norm_num))

@[simp] theorem digitsOf_length (n : Nat) : (digitsOf n).length = digitCount n := by simp [digitsOf]

/-! ## Field sequences -/

/-- A field sequence changes `BUF`, `BS_CUR` and `BS_REM` alone. -/
theorem writeFields_frame {fs : List (Nat × Nat)} {s t : State} (h : writeFields fs s = .ok t) :
    t = (s.setBuf t.buf).setCursor t.bsCur t.bsRem := by
  induction fs generalizing s with
  | nil => cases h; rfl
  | cons f fs ih =>
    obtain ⟨u, hu, ht⟩ := Effect.bind_ok.1 h
    rw [ih ht]; rw [writeChunks_frame hu]; rfl

/-- Fields one after another. -/
theorem writeFields_append (fs gs : List (Nat × Nat)) (s : State) :
    writeFields (fs ++ gs) s = (writeFields fs s >>= writeFields gs) := by
  induction fs generalizing s with
  | nil => rfl
  | cons f fs ih =>
    show (wrbits f.1 f.2 s >>= writeFields (fs ++ gs)) = ((wrbits f.1 f.2 s >>= writeFields fs) >>= writeFields gs)
    cases wrbits f.1 f.2 s with
    | error e => rfl
    | ok t => exact ih t

/-- A payload changes `BUF`, `BS_CUR` and `BS_REM` alone. -/
theorem payload_frame {m : Mode} {s t : State} (h : payload m s = .ok t) :
    t = (s.setBuf t.buf).setCursor t.bsCur t.bsRem := by
  obtain ⟨es, -, ht⟩ := Effect.bind_ok.1 h
  exact writeFields_frame ht

/-! ## What each command can do -/

theorem bsnew_ok {p : Params} {s t : State} (h : bsnew p s = .ok t) :
    bytesFor s.operand ≤ p.bufMax ∧
    t = ((s.setBuf (s.buf.fillZero (bytesFor s.operand))).openStream (bytesFor s.operand)).setRcode .ok := by
  unfold bsnew at h
  simp only at h
  split at h
  · cases h
  · next hl => cases h; exact ⟨by omega, rfl⟩

theorem bsview_ok {p : Params} {s t : State} (h : bsview p s = .ok t) :
    s.operand ≤ p.bufMax ∧ t = (s.openStream s.operand).setRcode .ok := by
  unfold bsview at h
  simp only at h
  split at h
  · cases h
  · next hl => cases h; exact ⟨by omega, rfl⟩

theorem writeCommand_ok {n : Nat} {v : Byte} {s t : State} (h : writeCommand n v s = .ok t) :
    ∃ u, write n v s = .ok u ∧ t = u.setRcode .ok := by
  obtain ⟨u, hu, ht⟩ := Effect.bind_ok.1 h
  cases ht
  exact ⟨u, hu, rfl⟩

theorem anlookup_ok {c : Byte} {s t : State} (h : anlookup c s = .ok t) :
    (∃ k, lut c = some k ∧ t = (s.setRes (zext64 k)).setRcode .ok) ∨
    (lut c = none ∧ t = (s.setRes 0xFFFFFFFFFFFFFFFF).setRcode .notFound) := by
  unfold anlookup at h
  split at h
  · next k hk => cases h; exact .inl ⟨k, hk, rfl⟩
  · next hk => cases h; exact .inr ⟨hk, rfl⟩

theorem segalnum_ok {p : Params} {s t : State} (h : segalnum p s = .ok t) :
    s.operand ≤ p.txtMax ∧ s.operand ≤ p.segMax ∧
    ((∃ i, scanText s.txt s.operand 0 = .ok (.invalidAt i) ∧
        t = (s.dropSegment.setRes (zext64 i)).setRcode .invalidChar) ∨
      ∃ cs, scanText s.txt s.operand 0 = .ok (.codes cs) ∧
        t = ((s.setSegment .alnum cs).setRes (zext64 s.operand)).setRcode .ok) := by
  unfold segalnum at h
  simp only at h
  split at h
  · cases h
  · split at h
    · cases h
    · refine ⟨by omega, by omega, ?_⟩
      split at h
      · cases h
      · next i hi => cases h; exact .inl ⟨i, hi, rfl⟩
      · next cs hcs => cases h; exact .inr ⟨cs, hcs, rfl⟩

theorem segtext_ok {p : Params} {s t : State} (h : segtext p s = .ok t) :
    s.operand ≤ p.txtMax ∧ ∃ text, s.text s.operand = .ok text ∧ (repair p text).length ≤ p.segMax ∧
      t = ((s.setSegment .byte (repair p text)).setRes (zext64 (repair p text).length)).setRcode .ok := by
  unfold segtext at h
  simp only at h
  split at h
  · cases h
  · obtain ⟨text, ht, h⟩ := Effect.bind_ok.1 h
    refine ⟨by omega, text, ht, ?_⟩
    split at h
    · cases h
    · next hl => cases h; exact ⟨by omega, rfl⟩

theorem segdatabits_ok {s t : State} (h : segdatabits s = .ok t) :
    ∃ m, s.segMode = some m ∧ t = (s.setRes (zext64 (dataBits m s.segLen))).setRcode .ok := by
  unfold segdatabits at h
  split at h
  · cases h
  · next m hm => cases h; exact ⟨m, hm, rfl⟩

theorem seglenbits_ok {v : Byte} {s t : State} (h : seglenbits v s = .ok t) :
    ∃ m b, s.segMode = some m ∧ bandOf v.toNat = some b ∧
      t = (s.setRes (zext64 (lengthBits m b))).setRcode .ok := by
  unfold seglenbits at h
  split at h
  · cases h
  · next m hm =>
    split at h
    · cases h
    · next b hb => cases h; exact ⟨m, b, hm, hb, rfl⟩

theorem segencode_ok {v : Byte} {s t : State} (h : segencode v s = .ok t) :
    ∃ m b u u', s.segMode = some m ∧ bandOf v.toNat = some b ∧
      s.count + (4 + lengthBits m b + dataBits m s.segLen) ≤ s.capacity ∧
      writeFields (headerFields m b s.segLen) s = .ok u ∧ payload m u = .ok u' ∧ t = u'.setRcode .ok := by
  unfold segencode at h
  split at h
  · cases h
  · next m hm =>
    split at h
    · cases h
    · next b hb =>
      split at h
      · cases h
      · next hc =>
        obtain ⟨u, hu, h⟩ := Effect.bind_ok.1 h
        obtain ⟨u', hu', h⟩ := Effect.bind_ok.1 h
        cases h
        exact ⟨m, b, u, u', hm, hb, by omega, hu, hu', rfl⟩

theorem segpayload_ok {s t : State} (h : segpayload s = .ok t) :
    ∃ m u, s.segMode = some m ∧ s.count + dataBits m s.segLen ≤ s.capacity ∧ payload m s = .ok u ∧
      t = u.setRcode .ok := by
  unfold segpayload at h
  split at h
  · cases h
  · next m hm =>
    split at h
    · cases h
    · next hc =>
      obtain ⟨u, hu, h⟩ := Effect.bind_ok.1 h
      cases h
      exact ⟨m, u, hm, by omega, hu, rfl⟩

/-! ## Every command -/

/-- The pseudocode of a command, before it is concluded. -/
def effectOf : Instr → State → Effect
  | .bsnew => bsnew Config.params
  | .bsview => bsview Config.params
  | .bscap => bscap
  | .bscount => bscount
  | .wr1 v => writeCommand 1 v
  | .wr2 v => writeCommand 2 v
  | .wr4 v => writeCommand 4 v
  | .wr8 v => writeCommand 8 v
  | .anlookup c => anlookup c
  | .digits => digits
  | .segnum => segnum
  | .segalnum => segalnum Config.params
  | .segtext => segtext Config.params
  | .segdatabits => segdatabits
  | .seglenbits v => seglenbits v
  | .segencode v => segencode v
  | .segpayload => segpayload

/-- Every command runs its pseudocode and then ends in one of the three ways of `conclude`. -/
theorem exec_eq (i : Instr) (s : State) : exec i s = conclude (encode i) s (effectOf i s) := by cases i <;> rfl

/-- A command that answers a next state completed, or took the fault entry from the state before it. -/
theorem exec_next {i : Instr} {s t : State} (h : exec i s = .next t) :
    effectOf i s = .ok t ∨ ∃ c, effectOf i s = .error (.fatal c) ∧ t = s.takeFatal c (encode i) :=
  conclude_next (exec_eq i s ▸ h)

/-- No command is refused. -/
theorem exec_not_refused (i : Instr) (s : State) (r : Refusal) : exec i s ≠ .refused r := by
  rw [exec_eq]; exact conclude_not_refused _ _ _ r

/-- A completing command leaves the host's accesses, the port's answer, the count of resets, the fault registers, `ARG`
and `TXT`. -/
theorem effectOf_ok_frame {i : Instr} {s t : State} (h : effectOf i s = .ok t) :
    t.pending = s.pending ∧ t.readData = s.readData ∧ t.resetCount = s.resetCount ∧ t.fatal = s.fatal ∧
    t.fcause = s.fcause ∧ t.fcmd = s.fcmd ∧ t.arg = s.arg ∧ t.txt = s.txt := by
  have hw : ∀ {n v}, writeCommand n v s = .ok t → t.pending = s.pending ∧ t.readData = s.readData ∧
      t.resetCount = s.resetCount ∧ t.fatal = s.fatal ∧ t.fcause = s.fcause ∧ t.fcmd = s.fcmd ∧ t.arg = s.arg ∧
      t.txt = s.txt := by
    intro n v hn
    obtain ⟨u, hu, rfl⟩ := writeCommand_ok hn
    rw [write_frame hu]; simp
  cases i <;> simp only [effectOf] at h
  case bsnew => obtain ⟨-, rfl⟩ := bsnew_ok h; simp
  case bsview => obtain ⟨-, rfl⟩ := bsview_ok h; simp
  case bscap => cases h; simp
  case bscount => cases h; simp
  case wr1 => exact hw h
  case wr2 => exact hw h
  case wr4 => exact hw h
  case wr8 => exact hw h
  case anlookup => obtain ⟨k, -, rfl⟩ | ⟨-, rfl⟩ := anlookup_ok h <;> simp
  case digits => cases h; simp
  case segnum => cases h; simp
  case segalnum => obtain ⟨-, -, ⟨i, -, rfl⟩ | ⟨cs, -, rfl⟩⟩ := segalnum_ok h <;> simp
  case segtext => obtain ⟨-, t, -, -, rfl⟩ := segtext_ok h; simp
  case segdatabits => obtain ⟨m, -, rfl⟩ := segdatabits_ok h; simp
  case seglenbits => obtain ⟨m, b, -, -, rfl⟩ := seglenbits_ok h; simp
  case segencode =>
    obtain ⟨m, b, u, u', -, -, -, hu, hu', rfl⟩ := segencode_ok h
    rw [payload_frame hu', writeFields_frame hu]; simp
  case segpayload =>
    obtain ⟨m, u, -, -, hu, rfl⟩ := segpayload_ok h
    rw [payload_frame hu]; simp

/-! ## The host port -/

/-- A command word that reaches the core: ignored, illegal, or run. -/
theorem runCommand_cases (w : CommandWord) (s : State) :
    (s.fatal = true ∧ runCommand w s = .next s) ∨
    (s.fatal = false ∧ ∃ why, decode w = .illegal why ∧ runCommand w s = .next (s.takeFatal .illegalCommand w)) ∨
    (s.fatal = false ∧ ∃ i, decode w = .ok i ∧ runCommand w s = exec i s) := by
  cases hf : s.fatal
  · cases hd : decode w with
    | ok i => exact .inr (.inr ⟨rfl, i, rfl, by simp [runCommand, State.halted, hf, hd]⟩)
    | illegal why => exact .inr (.inl ⟨rfl, why, rfl, by simp [runCommand, State.halted, hf, hd]⟩)
  · exact .inl ⟨rfl, by simp [runCommand, State.halted, hf]⟩

/-- A host write of a cell changes `BUF` or `TXT` alone. -/
theorem writeCell_frame (p : Params) (sp : Space) (a : Nat) (v : Byte) (s : State) :
    writeCell p sp a v s = (s.setBuf (writeCell p sp a v s).buf).setTxt (writeCell p sp a v s).txt := by
  unfold writeCell
  cases sp
  · simp only; split <;> rfl
  · simp only; split <;> rfl
  · rfl

/-- What one step does, by the first access. -/
theorem step_cases (s : State) :
    (s.pending = [] ∧ step s = .next s) ∨
    ∃ e rest, s.pending = e :: rest ∧ step s = perform Config.params e (s.setPending rest) := by
  cases h : s.pending with
  | nil => exact .inl ⟨rfl, by simp [step, nextEvent, h]⟩
  | cons e rest => exact .inr ⟨e, rest, rfl, by simp [step, nextEvent, h]⟩

/-- A delivered command word is what the next step runs. -/
theorem step_deliver (s : State) (w : CommandWord) : step (s.deliver w) = runCommand w s := by
  have : commandOf (w.setWidth 64) = w := by
    simp only [commandOf]; apply BitVec.eq_of_toNat_eq
    simp [BitVec.extractLsb'_toNat]
    omega
  simp only [step, nextEvent, State.deliver, perform, writeReg, State.setPending, if_pos, this]

end Machine
end Sys2Proof
end

