-- ==== Sys2Proof/Laws/Append.lean ====
section
/-! SUPPORT. What the appending operations can do: a `WRITE`, a sequence of writes, `WRBITS`, a sequence of fields and the
two encoders, each as the bits it appends to the stream, where it completes and where it stops. -/

namespace Sys2Proof.Machine

/-! ## Bits of fields -/

@[simp] theorem fieldBits_length (f : Nat × Nat) : (fieldBits f).length = f.1 := by simp [fieldBits]

theorem fieldsBits_cons (f : Nat × Nat) (fs : List (Nat × Nat)) :
    fieldsBits (f :: fs) = fieldBits f ++ fieldsBits fs := by simp [fieldsBits]

theorem fieldsBits_append (fs gs : List (Nat × Nat)) : fieldsBits (fs ++ gs) = fieldsBits fs ++ fieldsBits gs := by
  simp [fieldsBits]

theorem fieldsBits_length (fs : List (Nat × Nat)) : (fieldsBits fs).length = (fs.map Prod.fst).sum := by
  induction fs with
  | nil => rfl
  | cons f fs ih => rw [fieldsBits_cons, List.length_append, ih, fieldBits_length]; simp

/-- A field is its high bits followed by the rest (40_bitstream.md R158). -/
theorem fieldBits_split (x : Nat) {p r : Nat} (h : p ≤ r) :
    fieldBits (p, x / 2 ^ (r - p) % 2 ^ p) ++ fieldBits (r - p, x) = fieldBits (r, x) := by
  apply List.ext_getElem?
  intro j
  by_cases hj : j < p
  · rw [List.getElem?_append_left (by simpa [fieldBits] using hj)]
    simp only [fieldBits, List.getElem?_map, List.getElem?_range hj, List.getElem?_range (show j < r by omega),
      Option.map_some]
    rw [Nat.testBit_mod_two_pow, Nat.testBit_div_two_pow]
    simp only [show p - 1 - j < p by omega, decide_true, Bool.true_and]
    congr 2; omega
  · rw [List.getElem?_append_right (by simpa [fieldBits] using hj)]
    simp only [fieldBits, List.length_map, List.length_range]
    by_cases hr : j < r
    · simp only [List.getElem?_map, List.getElem?_range (show j - p < r - p by omega), List.getElem?_range hr,
        Option.map_some]
      congr 2; omega
    · rw [List.getElem?_eq_none_iff.2 (by simp; omega), List.getElem?_eq_none_iff.2 (by simp; omega)]

/-- The bits of an immediate that a `WRITE` of width `n` appends. -/
theorem fieldBits_byte (n : Nat) (v : Byte) :
    fieldBits (n, v.toNat) = (List.range n).map fun j => v.getLsbD (n - 1 - j) := by
  simp [fieldBits, BitVec.getLsbD]

/-! ## What an append is -/

/-- `t` is `s` with the bits appended: only `BUF` and the cursor differ, each new position holds its old bit OR the new
one, every other position its old bit (40_bitstream.md R157), and no byte becomes written or unwritten. -/
structure Appends (s t : State) (bits : List Bool) : Prop where
  frame : t = (s.setBuf t.buf).setCursor t.bsCur t.bsRem
  inv : t.CursorInv
  count : t.count = s.count + bits.length
  bit : ∀ j x, bits[j]? = some x → streamBit t.buf (s.count + j) = (streamBit s.buf (s.count + j)).map (· || x)
  other : ∀ p, p < s.count ∨ s.count + bits.length ≤ p → streamBit t.buf p = streamBit s.buf p
  written : ∀ a, (t.buf.read a).isSome = (s.buf.read a).isSome
  wf : s.buf.wf → t.buf.wf

theorem Appends.refl {s : State} (h : s.CursorInv) : Appends s s [] :=
  ⟨rfl, h, rfl, by simp, fun _ _ => rfl, fun _ => rfl, id⟩

theorem Appends.trans {s t u : State} {xs ys : List Bool} (h : Appends s t xs) (h' : Appends t u ys) :
    Appends s u (xs ++ ys) := by
  refine ⟨?_, h'.inv, by rw [h'.count, h.count, List.length_append]; omega, ?_, ?_,
    fun a => (h'.written a).trans (h.written a), fun hw => h'.wf (h.wf hw)⟩
  · rw [h'.frame, h.frame]; rfl
  · intro j x hx
    by_cases hj : j < xs.length
    · rw [List.getElem?_append_left hj] at hx
      rw [h'.other _ (.inl (by rw [h.count]; omega)), h.bit j x hx]
    · rw [List.getElem?_append_right (by omega)] at hx
      have := h'.bit _ x hx
      rw [h.count, show s.count + xs.length + (j - xs.length) = s.count + j by omega] at this
      rw [this, h.other _ (.inr (by omega))]
  · intro p hp
    rw [List.length_append] at hp
    rw [h'.other p (by rw [h.count]; omega), h.other p (by omega)]

theorem Appends.capacity {s t : State} {bits : List Bool} (h : Appends s t bits) : t.capacity = s.capacity := by
  rw [h.frame]; rfl

/-- After an append, the positions still to come are as written as before. -/
theorem Appends.touches {s t : State} {bits : List Bool} (h : Appends s t bits) {n : Nat}
    (hw : s.touchesWritten (bits.length + n)) : t.touchesWritten n := by
  intro j hj
  rw [h.written, h.count]
  have := hw (bits.length + j) (by omega)
  rwa [← Nat.add_assoc] at this

theorem touchesWritten_mono {s : State} {n m : Nat} (h : n ≤ m) (hw : s.touchesWritten m) : s.touchesWritten n :=
  fun j hj => hw j (by omega)

theorem Appends.touches_add {s t : State} {bits : List Bool} {n : Nat} (ha : Appends s t bits)
    (h : s.touchesWritten bits.length) (h' : t.touchesWritten n) : s.touchesWritten (bits.length + n) := by
  intro j hj
  by_cases hlt : j < bits.length
  · exact h j hlt
  · have := h' (j - bits.length) (by omega)
    rw [ha.written, ha.count] at this
    rwa [show s.count + bits.length + (j - bits.length) = s.count + j by omega] at this

/-- A byte that holds none of the appended positions is unchanged. -/
theorem Appends.byte {s t : State} {bits : List Bool} (h : Appends s t bits) (a : Nat)
    (ha : ∀ p, s.count ≤ p → p < s.count + bits.length → p / 8 ≠ a) : t.buf.read a = s.buf.read a := by
  have hw := h.written a
  have hb : ∀ q < 8, streamBit t.buf (8 * a + q) = streamBit s.buf (8 * a + q) := by
    intro q hq
    apply h.other
    by_contra hc
    exact ha (8 * a + q) (by omega) (by omega) (by omega)
  cases ht : t.buf.read a with
  | none => cases hs : s.buf.read a with
    | none => rfl
    | some b => simp [ht, hs] at hw
  | some b => cases hs : s.buf.read a with
    | none => simp [ht, hs] at hw
    | some b' =>
      congr 1
      apply BitVec.eq_of_getLsbD_eq
      intro i hi
      have := hb (7 - i) (by omega)
      unfold streamBit at this
      rw [show (8 * a + (7 - i)) / 8 = a by omega, show 7 - (8 * a + (7 - i)) % 8 = i by omega, ht, hs] at this
      simpa using this

/-! ## One write -/

theorem mask_getLsbD : ∀ n ≤ 8, ∀ i < 8, (mask n).getLsbD i = decide (i < n) := by decide

theorem lowBits_and_mask {n k : Nat} (hn : n ≤ 8) (hk : k ≤ n) (v : Byte) : lowBits n v &&& mask k = v &&& mask k := by
  have : ∀ n ≤ 8, ∀ k ≤ n, mask n &&& mask k = mask k := by decide
  rw [lowBits, BitVec.and_assoc, this n hn k hk]

/-- The bits of a value shifted to its place in the current byte (40_bitstream.md R150). -/
theorem lowBits_shift_bit {n r q : Nat} (hn : n ≤ 8) (hr : r ≤ 8) (hnr : n ≤ r) (v : Byte) (hq : q < 8) :
    (lowBits n v <<< (r - n)).getLsbD (7 - q) =
      if 8 - r ≤ q ∧ q < 8 - r + n then v.getLsbD (n - 1 - (q - (8 - r))) else false := by
  simp only [BitVec.getLsbD_shiftLeft, lowBits, BitVec.getLsbD_and]
  by_cases h1 : 7 - q < r - n
  · rw [if_neg (by omega)]; simp [h1]
  · rw [mask_getLsbD n hn _ (by omega)]
    by_cases h2 : 8 - r ≤ q
    · rw [if_pos (by omega)]
      simp [show 7 - q < 8 by omega, h1, show 7 - q - (r - n) < n by omega]
      congr 1; omega
    · rw [if_neg (by omega)]; simp [show ¬ 7 - q - (r - n) < n by omega]

theorem fieldBits_byte_getElem? {n : Nat} {v : Byte} {j : Nat} {x : Bool}
    (h : (fieldBits (n, v.toNat))[j]? = some x) : j < n ∧ x = v.getLsbD (n - 1 - j) := by
  rw [fieldBits_byte] at h
  simp only [List.getElem?_map, Option.map_eq_some_iff, List.getElem?_eq_some_iff, List.length_range,
    List.getElem_range] at h
  obtain ⟨a, ⟨h, rfl⟩, rfl⟩ := h
  exact ⟨h, rfl⟩

/-- A `WRITE` that succeeds appends the low bits of its value (40_bitstream.md R157). -/
theorem write_appends {n : Nat} {v : Byte} {s t : State} (hn : 1 ≤ n ∧ n ≤ 8) (hi : s.CursorInv)
    (h : write n v s = .ok t) : Appends s t (fieldBits (n, v.toNat)) := by
  obtain ⟨h1, h2, h3, h4⟩ := hi
  obtain ⟨hc, h⟩ := write_ok h
  have hlen : (fieldBits (n, v.toNat)).length = n := fieldBits_length _
  unfold State.count State.capacity at hc
  rcases h with ⟨hr, b, hb, rfl⟩ | ⟨hr, b, b', hb, hb', rfl⟩
  · refine ⟨rfl, ?_, ?_, ?_, ?_, ?_, ?_⟩
    · constructor <;> simp <;> split <;> omega
    · rw [hlen]; simp only [State.count, State.setCursor, State.setBuf]; split <;> omega
    · intro j x hx
      obtain ⟨hj, rfl⟩ := fieldBits_byte_getElem? hx
      simp only [streamBit, State.setCursor, State.setBuf]
      have : (s.count + j) / 8 = s.bsCur := by unfold State.count; omega
      have hq : (s.count + j) % 8 = (8 - s.bsRem) + j := by unfold State.count; omega
      rw [this, Memory.read_write_same, hb]
      simp only [Option.map_some, BitVec.getLsbD_or]
      rw [lowBits_shift_bit hn.2 h2 hr v (by omega), if_pos (by omega), hq]
      congr 3; omega
    · intro p hp
      rw [hlen] at hp
      simp only [streamBit, State.setCursor, State.setBuf]
      by_cases hpc : p / 8 = s.bsCur
      · rw [hpc, Memory.read_write_same, hb]
        simp only [Option.map_some, BitVec.getLsbD_or]
        rw [lowBits_shift_bit hn.2 h2 hr v (by omega), if_neg (by unfold State.count at hp; omega)]
        simp
      · rw [Memory.read_write_other _ _ hpc]
    · intro a
      simp only [State.setCursor, State.setBuf, Memory.read_write]
      split
      · next h => subst h; simp [hb]
      · rfl
    · intro hw; exact Memory.wf_write hw _ _
  · have hk : 1 ≤ n - s.bsRem ∧ n - s.bsRem ≤ 7 := by omega
    refine ⟨rfl, ?_, ?_, ?_, ?_, ?_, ?_⟩
    · constructor <;> simp <;> omega
    · rw [hlen]; simp only [State.count, State.setCursor, State.setBuf]; omega
    · intro j x hx
      obtain ⟨hj, rfl⟩ := fieldBits_byte_getElem? hx
      simp only [streamBit, State.setCursor, State.setBuf]
      by_cases hjr : j < s.bsRem
      · have : (s.count + j) / 8 = s.bsCur := by unfold State.count; omega
        have hq : (s.count + j) % 8 = (8 - s.bsRem) + j := by unfold State.count; omega
        rw [this, Memory.read_write_other _ _ (by omega), Memory.read_write_same, hb]
        simp only [Option.map_some, BitVec.getLsbD_or, BitVec.getLsbD_ushiftRight, lowBits, BitVec.getLsbD_and]
        rw [mask_getLsbD n (by omega) _ (by omega), hq]
        rw [show n - s.bsRem + (7 - (8 - s.bsRem + j)) = n - 1 - j by omega]
        simp [show n - 1 - j < n by omega]
      · have : (s.count + j) / 8 = s.bsCur + 1 := by unfold State.count; omega
        have hq : (s.count + j) % 8 = j - s.bsRem := by unfold State.count; omega
        rw [this, Memory.read_write_same, hb']
        simp only [Option.map_some, BitVec.getLsbD_or]
        rw [lowBits_and_mask (by omega) (by omega)]
        simp only [BitVec.getLsbD_shiftLeft, BitVec.getLsbD_and, hq]
        rw [mask_getLsbD _ (by omega) _ (by omega)]
        rw [show 7 - (j - s.bsRem) - (8 - (n - s.bsRem)) = n - 1 - j by omega]
        simp [show n - 1 - j < n - s.bsRem by omega, show ¬ (7 - (j - s.bsRem) < 8 - (n - s.bsRem)) by omega, show 7 - (j - s.bsRem) < 8 by omega]
    · intro p hp
      rw [hlen] at hp
      simp only [streamBit, State.setCursor, State.setBuf]
      unfold State.count at hp
      by_cases hpc : p / 8 = s.bsCur
      · rw [hpc, Memory.read_write_other _ _ (by omega), Memory.read_write_same, hb]
        simp only [Option.map_some, BitVec.getLsbD_or, BitVec.getLsbD_ushiftRight, lowBits, BitVec.getLsbD_and]
        by_cases hx : n - s.bsRem + (7 - p % 8) < 8
        · rw [mask_getLsbD n (by omega) _ hx]
          simp [show ¬ (n - s.bsRem + (7 - p % 8) < n) by omega]
        · rw [BitVec.getLsbD_of_ge v _ (by omega)]; simp
      · by_cases hpc' : p / 8 = s.bsCur + 1
        · rw [hpc', Memory.read_write_same, hb']
          simp only [Option.map_some, BitVec.getLsbD_or]
          simp only [BitVec.getLsbD_shiftLeft, BitVec.getLsbD_and]
          simp [show (7 - p % 8 < 8 - (n - s.bsRem)) by omega]
        · rw [Memory.read_write_other _ _ hpc', Memory.read_write_other _ _ hpc]
    · intro a
      simp only [State.setCursor, State.setBuf, Memory.read_write]
      split
      · next h => subst h; simp [hb']
      · split
        · next h => subst h; simp [hb]
        · rfl
    · intro hw; exact Memory.wf_write (Memory.wf_write hw _ _) _ _

/-- A `WRITE` that fits over written bytes succeeds. -/
theorem write_completes {n : Nat} {s : State} (hn : 1 ≤ n ∧ n ≤ 8) (hi : s.CursorInv) (hc : s.count + n ≤ s.capacity)
    (hw : s.touchesWritten n) (v : Byte) : ∃ t, write n v s = .ok t := by
  cases h : write n v s with
  | ok t => exact ⟨t, rfl⟩
  | error e =>
    obtain ⟨h1, h2, h3, h4⟩ := hi
    rcases write_error h with ⟨h, -⟩ | ⟨-, -, h | ⟨hr, h⟩⟩
    · omega
    · have := hw 0 (by omega)
      rw [show (s.count + 0) / 8 = s.bsCur by unfold State.count; omega, h] at this; simp at this
    · have := hw (n - 1) (by omega)
      rw [show (s.count + (n - 1)) / 8 = s.bsCur + 1 by unfold State.count; omega, h] at this; simp at this

/-- A `WRITE` that succeeds touched written bytes only. -/
theorem write_touched {n : Nat} {v : Byte} {s t : State} (hn : 1 ≤ n ∧ n ≤ 8) (hi : s.CursorInv)
    (h : write n v s = .ok t) : s.touchesWritten n := by
  obtain ⟨h1, h2, h3, h4⟩ := hi
  rcases write_ok h with ⟨-, ⟨hr, b, hb, -⟩ | ⟨hr, b, b', hb, hb', -⟩⟩
  · intro j hj
    rw [show (s.count + j) / 8 = s.bsCur by unfold State.count; omega, hb]; rfl
  · intro j hj
    by_cases hjr : j < s.bsRem
    · rw [show (s.count + j) / 8 = s.bsCur by unfold State.count; omega, hb]; rfl
    · rw [show (s.count + j) / 8 = s.bsCur + 1 by unfold State.count; omega, hb']; rfl

/-! ## Sequences of writes -/

/-- The widths of the writes are those of `WRITE`. -/
abbrev WidthsOk (cs : List (Nat × Byte)) : Prop := ∀ c ∈ cs, 1 ≤ c.1 ∧ c.1 ≤ 8

theorem chunkValue_toNat (x r : Nat) : (chunkValue x r (widest r)).toNat = x / 2 ^ (r - widest r) % 2 ^ widest r := by
  have h8 : widest r ≤ 8 := by unfold widest; split_ifs <;> omega
  rw [chunkValue, BitVec.toNat_ofNat]
  exact Nat.mod_eq_of_lt (Nat.lt_of_lt_of_le (Nat.mod_lt _ (by positivity)) (Nat.pow_le_pow_right (by norm_num) h8))

/-- The writes of `WRBITS` carry the bits of the field (40_bitstream.md R158). -/
theorem chunksFrom_bits (x : Nat) {k r : Nat} (h : r ≤ k) :
    ((chunksFrom x k r).map fun c => fieldBits (c.1, c.2.toNat)).flatten = fieldBits (r, x) := by
  induction k generalizing r with
  | zero => obtain rfl : r = 0 := by omega
            rfl
  | succ k ih =>
    unfold chunksFrom
    split
    · next h => subst h; rfl
    · next h0 =>
      have hp : 0 < widest r := by unfold widest; split_ifs <;> omega
      rw [List.map_cons, List.flatten_cons, ih (by omega), chunkValue_toNat, fieldBits_split _ (widest_le h0)]

theorem chunksFrom_widthsOk (x k r : Nat) : WidthsOk (chunksFrom x k r) := by
  induction k generalizing r with
  | zero => simp [chunksFrom]
  | succ k ih =>
    unfold chunksFrom
    split
    · simp
    · intro c hc
      rcases List.mem_cons.1 hc with rfl | hc
      · constructor <;> simp only [widest] <;> split_ifs <;> omega
      · exact ih _ c hc

theorem chunks_widthsOk (w x : Nat) : WidthsOk (chunks w x) := chunksFrom_widthsOk x w w

theorem chunks_widths (w x : Nat) : ((chunks w x).map Prod.fst).sum = w := chunksFrom_widths x (Nat.le_refl w)

theorem writeChunks_appends {cs : List (Nat × Byte)} {s t : State} (hn : WidthsOk cs) (hi : s.CursorInv)
    (h : writeChunks cs s = .ok t) : Appends s t (cs.map fun c => fieldBits (c.1, c.2.toNat)).flatten := by
  induction cs generalizing s with
  | nil => cases h; exact Appends.refl hi
  | cons c cs ih =>
    obtain ⟨u, hu, ht⟩ := Effect.bind_ok.1 h
    have h1 := write_appends (hn c (by simp)) hi hu
    exact h1.trans (ih (fun c hc => hn c (by simp [hc])) h1.inv ht)

theorem writeChunks_completes {cs : List (Nat × Byte)} {s : State} (hn : WidthsOk cs) (hi : s.CursorInv)
    (hc : s.count + (cs.map Prod.fst).sum ≤ s.capacity) (hw : s.touchesWritten (cs.map Prod.fst).sum) :
    ∃ t, writeChunks cs s = .ok t := by
  induction cs generalizing s with
  | nil => exact ⟨s, rfl⟩
  | cons c cs ih =>
    rw [List.map_cons, List.sum_cons] at hc hw
    obtain ⟨u, hu⟩ := write_completes (hn c (by simp)) hi (by omega) (touchesWritten_mono (by omega) hw) c.2
    have h1 := write_appends (hn c (by simp)) hi hu
    have hl := fieldBits_length (c.1, c.2.toNat)
    obtain ⟨t, ht⟩ := ih (fun c hc => hn c (by simp [hc])) h1.inv (by rw [h1.capacity, h1.count, hl]; omega)
      (h1.touches (by rw [hl]; exact hw))
    exact ⟨t, by show (write c.1 c.2 s >>= _) = _; rw [hu]; exact ht⟩

theorem writeChunks_touched {cs : List (Nat × Byte)} {s t : State} (hn : WidthsOk cs) (hi : s.CursorInv)
    (h : writeChunks cs s = .ok t) : s.touchesWritten (cs.map Prod.fst).sum := by
  induction cs generalizing s with
  | nil => intro j hj; simp at hj
  | cons c cs ih =>
    obtain ⟨u, hu, ht⟩ := Effect.bind_ok.1 h
    have h1 := write_appends (hn c (by simp)) hi hu
    have hl := fieldBits_length (c.1, c.2.toNat)
    have := h1.touches_add (hl.symm ▸ write_touched (hn c (by simp)) hi hu)
      (ih (fun c hc => hn c (by simp [hc])) h1.inv ht)
    rwa [hl] at this

/-- A sequence of writes that fits stops only over a byte that was never written. -/
theorem writeChunks_error {cs : List (Nat × Byte)} {s : State} {e : Stop} (hn : WidthsOk cs) (hi : s.CursorInv)
    (hc : s.count + (cs.map Prod.fst).sum ≤ s.capacity) (h : writeChunks cs s = .error e) :
    e = .unknown .unwrittenBuf := by
  induction cs generalizing s with
  | nil => cases h
  | cons c cs ih =>
    rw [List.map_cons, List.sum_cons] at hc
    rcases Effect.bind_error.1 h with h | ⟨u, hu, ht⟩
    · rcases write_error h with ⟨h, -⟩ | ⟨-, h, -⟩
      · omega
      · exact h
    · have h1 := write_appends (hn c (by simp)) hi hu
      have hl := fieldBits_length (c.1, c.2.toNat)
      exact ih (fun c hc => hn c (by simp [hc])) h1.inv (by rw [h1.capacity, h1.count, hl]; omega) ht

/-! ## `WRBITS` and fields -/

/-- `WRBITS(w, x)` appends `x mod 2^w`, most significant bit first (40_bitstream.md R158). -/
theorem wrbits_appends {w x : Nat} {s t : State} (hi : s.CursorInv) (h : wrbits w x s = .ok t) :
    Appends s t (fieldBits (w, x)) := by
  have := writeChunks_appends (chunks_widthsOk w x) hi h
  rwa [chunks, chunksFrom_bits x (Nat.le_refl w)] at this

theorem wrbits_completes {w : Nat} {s : State} (hi : s.CursorInv) (hc : s.count + w ≤ s.capacity)
    (hw : s.touchesWritten w) (x : Nat) : ∃ t, wrbits w x s = .ok t := by
  have := chunks_widths w x
  exact writeChunks_completes (chunks_widthsOk w x) hi (by rwa [this]) (by rwa [this])

theorem writeFields_appends {fs : List (Nat × Nat)} {s t : State} (hi : s.CursorInv) (h : writeFields fs s = .ok t) :
    Appends s t (fieldsBits fs) := by
  induction fs generalizing s with
  | nil => cases h; exact Appends.refl hi
  | cons f fs ih =>
    obtain ⟨u, hu, ht⟩ := Effect.bind_ok.1 h
    have h1 := wrbits_appends hi hu
    rw [fieldsBits_cons]
    exact h1.trans (ih h1.inv ht)

theorem writeFields_completes {fs : List (Nat × Nat)} {s : State} (hi : s.CursorInv)
    (hc : s.count + (fieldsBits fs).length ≤ s.capacity) (hw : s.touchesWritten (fieldsBits fs).length) :
    ∃ t, writeFields fs s = .ok t := by
  induction fs generalizing s with
  | nil => exact ⟨s, rfl⟩
  | cons f fs ih =>
    rw [fieldsBits_cons, List.length_append] at hc hw
    have hl : (fieldBits f).length = f.1 := fieldBits_length f
    obtain ⟨u, hu⟩ := wrbits_completes hi (by omega) (touchesWritten_mono (by omega) hw) f.2 (w := f.1)
    have h1 : Appends s u (fieldBits f) := wrbits_appends hi hu
    obtain ⟨t, ht⟩ := ih h1.inv (by rw [h1.capacity, h1.count]; omega) (h1.touches hw)
    exact ⟨t, by show (wrbits f.1 f.2 s >>= _) = _; rw [hu]; exact ht⟩

theorem writeFields_touched {fs : List (Nat × Nat)} {s t : State} (hi : s.CursorInv) (h : writeFields fs s = .ok t) :
    s.touchesWritten (fieldsBits fs).length := by
  induction fs generalizing s with
  | nil => intro j hj; simp [fieldsBits] at hj
  | cons f fs ih =>
    obtain ⟨u, hu, ht⟩ := Effect.bind_ok.1 h
    have h1 : Appends s u (fieldBits f) := wrbits_appends hi hu
    rw [fieldsBits_cons, List.length_append]
    refine h1.touches_add ?_ (ih h1.inv ht)
    have := writeChunks_touched (chunks_widthsOk f.1 f.2) hi hu
    rwa [chunks_widths, ← fieldBits_length f] at this

theorem writeFields_error {fs : List (Nat × Nat)} {s : State} {e : Stop} (hi : s.CursorInv)
    (hc : s.count + (fieldsBits fs).length ≤ s.capacity) (h : writeFields fs s = .error e) :
    e = .unknown .unwrittenBuf := by
  induction fs generalizing s with
  | nil => cases h
  | cons f fs ih =>
    rw [fieldsBits_cons, List.length_append] at hc
    have hl : (fieldBits f).length = f.1 := fieldBits_length f
    rcases Effect.bind_error.1 h with h | ⟨u, hu, ht⟩
    · exact writeChunks_error (chunks_widthsOk f.1 f.2) hi (by rw [chunks_widths]; omega) h
    · have h1 : Appends s u (fieldBits f) := wrbits_appends hi hu
      exact ih h1.inv (by rw [h1.capacity, h1.count]; omega) ht

/-! ## The encoders -/

/-- The widths of the payload fields add up to `dataBits()` (42_segment.md R226). -/
theorem payloadFields_widths (m : Mode) (es : List Byte) :
    ((payloadFields m es).map Prod.fst).sum = dataBits m es.length := by
  cases m with
  | byte => simp [payloadFields, byteFields, dataBits, Function.comp_def]; omega
  | numeric =>
    simp only [payloadFields]
    induction es using numericFields.induct with
    | case1 a b c ds ih =>
      simp only [numericFields, List.map_cons, List.sum_cons, ih, dataBits, List.length_cons]; split_ifs <;> omega
    | case2 => simp [numericFields, dataBits]
    | case3 => simp [numericFields, dataBits]
    | case4 => simp [numericFields, dataBits]
  | alnum =>
    simp only [payloadFields]
    induction es using alnumFields.induct with
    | case1 a b ds ih => simp only [alnumFields, List.map_cons, List.sum_cons, ih, dataBits, List.length_cons]; omega
    | case2 => simp [alnumFields, dataBits]
    | case3 => simp [alnumFields, dataBits]

/-- The fields of a whole segment (42_segment.md R235). -/
def segmentFields (m : Mode) (b : Band) (len : Nat) (es : List Byte) : List (Nat × Nat) :=
  headerFields m b len ++ payloadFields m es

theorem segmentFields_bits (m : Mode) (b : Band) (len : Nat) (es : List Byte) :
    fieldsBits (segmentFields m b len es) =
      fieldBits (4, tag m) ++ fieldBits (lengthBits m b, len) ++ fieldsBits (payloadFields m es) := by
  simp [segmentFields, headerFields, fieldsBits]

theorem segmentFields_length (m : Mode) (b : Band) {len : Nat} {es : List Byte} (h : es.length = len) :
    (fieldsBits (segmentFields m b len es)).length = 4 + lengthBits m b + dataBits m len := by
  rw [segmentFields_bits]
  simp only [List.length_append, fieldBits_length, fieldsBits_length, payloadFields_widths, h]

/-- The bytes of the segment, read one by one, are what the encoders read. -/
theorem elements_of {s : State} {es : List Byte} (hl : es.length = s.segLen)
    (h : ∀ i < s.segLen, s.seg.read i = es[i]?) : s.elements = .ok es := by
  obtain ⟨es', he⟩ := elements_of_written fun i hi => by rw [h i hi, List.getElem?_eq_getElem (by omega)]; rfl
  obtain ⟨hl', h'⟩ := elements_ok he
  suffices es' = es by rw [he, this]
  refine List.ext_getElem? fun i => ?_
  by_cases hi : i < s.segLen
  · rw [← h i hi, h' i hi]
  · rw [List.getElem?_eq_none_iff.2 (by omega), List.getElem?_eq_none_iff.2 (by omega)]

/-- `SEGENCODE` past its checks is one sequence of fields. -/
theorem segencode_eq {s : State} {v : Byte} {m : Mode} {b : Band} {es : List Byte} (hm : s.segMode = some m)
    (hb : bandOf v.toNat = some b) (hes : s.elements = .ok es)
    (hc : s.count + (4 + lengthBits m b + dataBits m s.segLen) ≤ s.capacity) :
    segencode v s = (writeFields (segmentFields m b s.segLen es) s >>= fun u => .ok (u.setRcode .ok)) := by
  unfold segencode; rw [hm]; simp only [hb]; rw [if_neg (by omega), segmentFields, writeFields_append]
  cases h : writeFields (headerFields m b s.segLen) s with
  | error e => rfl
  | ok t =>
    have : t.elements = .ok es := by rw [writeFields_frame h]; exact hes
    simp only [Effect.ok_bind, payload, this]; rfl

/-- `SEGPAYLOAD` past its checks is one sequence of fields. -/
theorem segpayload_eq {s : State} {m : Mode} {es : List Byte} (hm : s.segMode = some m) (hes : s.elements = .ok es)
    (hc : s.count + dataBits m s.segLen ≤ s.capacity) :
    segpayload s = (writeFields (payloadFields m es) s >>= fun u => .ok (u.setRcode .ok)) := by
  unfold segpayload; rw [hm]; simp only; rw [if_neg (by omega)]
  simp only [payload, hes]; rfl

/-- Everything a `SEGENCODE` that succeeds can do. -/
theorem segencode_fields {v : Byte} {s t : State} (h : segencode v s = .ok t) :
    ∃ m b es u, s.segMode = some m ∧ bandOf v.toNat = some b ∧ s.elements = .ok es ∧
      s.count + (4 + lengthBits m b + dataBits m s.segLen) ≤ s.capacity ∧
      writeFields (segmentFields m b s.segLen es) s = .ok u ∧ t = u.setRcode .ok := by
  obtain ⟨m, b, u, u', hm, hb, hc, hu, hu', rfl⟩ := segencode_ok h
  obtain ⟨es, hes, hw⟩ := Effect.bind_ok.1 hu'
  have : s.elements = .ok es := by rw [writeFields_frame hu] at hes; exact hes
  exact ⟨m, b, es, u', hm, hb, this, hc, by rw [segmentFields, writeFields_append, hu]; exact hw, rfl⟩

/-- Everything a `SEGPAYLOAD` that succeeds can do. -/
theorem segpayload_fields {s t : State} (h : segpayload s = .ok t) :
    ∃ m es u, s.segMode = some m ∧ s.elements = .ok es ∧ s.count + dataBits m s.segLen ≤ s.capacity ∧
      writeFields (payloadFields m es) s = .ok u ∧ t = u.setRcode .ok := by
  obtain ⟨m, u, hm, hc, hu, rfl⟩ := segpayload_ok h
  obtain ⟨es, hes, hw⟩ := Effect.bind_ok.1 hu
  exact ⟨m, es, u, hm, hes, hc, hw, rfl⟩

end Sys2Proof.Machine
end

