-- ==== Sys2Proof/Laws/PerInstr.lean ====
section
/-! SUPPORT. One statement per command, as a term: where the bits of its word come from. -/

namespace Sys2Proof.Laws.EncodingFields

/-- The fields of the command's word (30_encoding.md R101, R102): its opcode, zero reserved bits, its immediate, which is 0
outside format I; and the command is well formed (R109). -/
def Statement (i : Instr) : Prop :=
  opcField (encode i) = i.op.opc ∧ rsvField (encode i) = 0 ∧ imm8Field (encode i) = i.imm8 ∧
  (i.op.format ≠ .i → i.imm8 = 0) ∧ i.wellFormed = true

/-- The fields of any opcode and immediate put side by side. -/
theorem fields (o v : Byte) :
    opcField (o ++ (0 : BitVec 16) ++ v) = o ∧ rsvField (o ++ (0 : BitVec 16) ++ v) = 0 ∧
    imm8Field (o ++ (0 : BitVec 16) ++ v) = v := by
  refine ⟨?_, ?_, ?_⟩ <;> apply BitVec.eq_of_getLsbD_eq <;> intro i hi <;>
    simp only [opcField, rsvField, imm8Field, BitVec.getLsbD_extractLsb', BitVec.getLsbD_append]
  · simp [hi, show ¬(24 + i < 8) by omega, show ¬(24 + i - 8 < 16) by omega, show 24 + i - 8 - 16 = i by omega]
  · simp [show ¬(8 + i < 8) by omega]; omega
  · simp [hi]

theorem byte_le (v : Byte) : v.toNat ≤ 255 := by have := v.isLt; omega

theorem of_parts {i : Instr} (h : i.op.format ≠ .i → i.imm8 = 0) (hw : i.wellFormed = true) : Statement i := by
  obtain ⟨h1, h2, h3⟩ := fields i.op.opc i.imm8
  exact ⟨h1, h2, h3, h, hw⟩

theorem bsnew : Statement .bsnew := of_parts (fun _ => rfl) (by decide)

theorem bsview : Statement .bsview := of_parts (fun _ => rfl) (by decide)

theorem bscap : Statement .bscap := of_parts (fun _ => rfl) (by decide)

theorem bscount : Statement .bscount := of_parts (fun _ => rfl) (by decide)

theorem wr1 (v : Byte) : Statement (.wr1 v) :=
  of_parts (by simp [Instr.op, Op.format]) (by revert v; decide)

theorem wr2 (v : Byte) : Statement (.wr2 v) :=
  of_parts (by simp [Instr.op, Op.format]) (by revert v; decide)

theorem wr4 (v : Byte) : Statement (.wr4 v) :=
  of_parts (by simp [Instr.op, Op.format]) (by revert v; decide)

theorem wr8 (v : Byte) : Statement (.wr8 v) :=
  of_parts (by simp [Instr.op, Op.format]) (by revert v; decide)

theorem anlookup (v : Byte) : Statement (.anlookup v) :=
  of_parts (by simp [Instr.op, Op.format]) (by revert v; decide)

theorem digits : Statement .digits := of_parts (fun _ => rfl) (by decide)

theorem segnum : Statement .segnum := of_parts (fun _ => rfl) (by decide)

theorem segalnum : Statement .segalnum := of_parts (fun _ => rfl) (by decide)

theorem segtext : Statement .segtext := of_parts (fun _ => rfl) (by decide)

theorem segdatabits : Statement .segdatabits := of_parts (fun _ => rfl) (by decide)

theorem seglenbits (v : Byte) : Statement (.seglenbits v) :=
  of_parts (by simp [Instr.op, Op.format]) (by revert v; decide)

theorem segencode (v : Byte) : Statement (.segencode v) :=
  of_parts (by simp [Instr.op, Op.format]) (by revert v; decide)

theorem segpayload : Statement .segpayload := of_parts (fun _ => rfl) (by decide)

end Sys2Proof.Laws.EncodingFields
end

