-- ==== Sys2Proof/Tests/Slice0.lean ====
section
/-! SUPPORT. Tests of single operations against 95_test_vectors.md and the words of 30_encoding.md R105, and, for each
obligation with hypotheses, states that meet them. -/

namespace Sys2Proof.Tests

open Sys2Proof Sys2Proof.Machine

/-! ## Helpers -/

/-- The parameters of 95_test_vectors.md. -/
def params : Params :=
  { bufMax := 4096, txtMax := 4096, segMax := 4096, placeholder := Config.defaultPlaceholder
    runPolicy := Config.defaultRunPolicy }

/-- The same with the other run policy. -/
def perRun : Params := { params with runPolicy := .perRun }

/-- `n` written zero bytes. -/
def zeros (n : Nat) : Memory := Memory.fillZero [] n

/-- A state after reset with a stream. -/
def withStream (len cur rem : Nat) (buf : Memory) : State :=
  { State.reset with bsLen := len, bsCur := cur, bsRem := rem, buf := buf }

/-- The state with a segment. -/
def withSegment (m : Mode) (es : List Byte) (s : State) : State :=
  { s with segMode := some m, segLen := es.length, seg := Memory.store [] 0 es }

/-- A state after reset with a text and its length in `ARG`. -/
def withText (t : List Byte) : State :=
  { State.reset with arg := BitVec.ofNat 64 t.length, txt := Memory.store [] 0 t }

/-- A state after reset with an operand. -/
def withArg (n : Nat) : State := { State.reset with arg := BitVec.ofNat 64 n }

/-- The state whose next accesses are these. -/
def withAccesses (l : List HostAccess) (s : State) : State := { s with pending := l }

/-- What a pseudocode leaves, if it completes. -/
def leaves {α : Type} (e : Effect) (f : State → α) : Option α :=
  match e with
  | .ok t => some (f t)
  | .error _ => none

/-- Why a pseudocode does not complete. -/
def stopsWith (e : Effect) : Option Stop :=
  match e with
  | .ok _ => none
  | .error x => some x

/-- The bytes of the stream's buffer. -/
def bufOf (s : State) : List (Option Byte) := (List.range s.bsLen).map s.buf.read

/-- The segment. -/
def segOf (s : State) : List (Option Byte) := (List.range s.segLen).map s.seg.read

/-- "HELLO WORLD" as codes (95_test_vectors.md 1.2). -/
def helloWorld : List Byte := [17, 14, 21, 21, 24, 36, 32, 24, 27, 21, 13]

/-! ## Well-formedness: one ill-formed line for each check (30_encoding.md R109) -/

theorem test_wellFormed_unknown_mnemonic : AsmLine.wellFormed ⟨"NOP", none⟩ = false := by decide

theorem test_wellFormed_missing_operand : AsmLine.wellFormed ⟨"WR1", none⟩ = false := by decide

theorem test_wellFormed_operand_not_allowed : AsmLine.wellFormed ⟨"BSNEW", some 8⟩ = false := by decide

theorem test_wellFormed_operand_too_large : AsmLine.wellFormed ⟨"WR1", some 256⟩ = false := by decide

theorem test_wellFormed_accepts :
    AsmLine.toInstr ⟨"SEGENCODE", some 255⟩ = some (.segencode 255) ∧ AsmLine.toInstr ⟨"BSCAP", none⟩ = some .bscap := by
  decide

/-! ## Decoding: words written from 30_encoding.md R101 and R105 -/

theorem test_decode_stream_commands :
    decode 0b00000001000000000000000000000000 = .ok .bsnew ∧ decode 0b00000010000000000000000000000000 = .ok .bsview ∧
    decode 0b00000011000000000000000000000000 = .ok .bscap ∧ decode 0b00000100000000000000000000000000 = .ok .bscount := by
  decide

theorem test_decode_writes :
    decode 0b00010000000000000000000011111110 = .ok (.wr1 0b11111110) ∧
    decode 0b00010001000000000000000000000011 = .ok (.wr2 0b00000011) ∧
    decode 0b00010010000000000000000000001010 = .ok (.wr4 0b00001010) ∧
    decode 0b00010011000000000000000010100101 = .ok (.wr8 0b10100101) := by decide

theorem test_decode_lookup_and_digits :
    decode 0b00100000000000000000000011111111 = .ok (.anlookup 0b11111111) ∧
    decode 0b00100001000000000000000000000000 = .ok .digits := by decide

theorem test_decode_segment_commands :
    decode 0b00110000000000000000000000000000 = .ok .segnum ∧ decode 0b00110001000000000000000000000000 = .ok .segalnum ∧
    decode 0b00110010000000000000000000000000 = .ok .segtext ∧
    decode 0b00111000000000000000000000000000 = .ok .segdatabits ∧
    decode 0b00111001000000000000000000001010 = .ok (.seglenbits 0b00001010) ∧
    decode 0b00111010000000000000000000101000 = .ok (.segencode 0b00101000) ∧
    decode 0b00111011000000000000000000000000 = .ok .segpayload := by decide

theorem test_decode_illegal :
    decode 0x00000000 = .illegal .unassignedOpcode ∧ decode 0xFFFFFFFF = .illegal .unassignedOpcode ∧
    decode 0x10800000 = .illegal .reservedBits ∧ decode 0x30000080 = .illegal .immediateNotAllowed ∧
    decode 0x14000000 = .illegal .unassignedOpcode := by decide

theorem test_encode : encode (.wr8 0xA5) = 0x130000A5 ∧ encode .segpayload = 0x3B000000 := by decide

theorem test_decodeTableWord :
    decodeTableWord 32 0x3A000028 = some (.segencode 40) ∧ decodeTableWord 32 0x14000000 = none := by decide

theorem test_withFetchWord_runs :
    (stateOf (step (State.reset.withFetchWord 32 0x21000000))).map (fun t => (t.res, t.pending)) = some (1, []) := by decide

/-! ## Stream commands (95_test_vectors.md 2.1, 2.2) -/

theorem test_bsnew_rounds_up :
    leaves (bsnew params (withArg 61)) (fun t => (t.bsLen, t.bsCur, t.bsRem, bufOf t)) =
      some (8, 0, 8, List.replicate 8 (some 0)) := by decide

theorem test_bsnew_resource_limit :
    leaves (bsnew { params with bufMax := 16 } (withArg 128)) State.bsLen = some 16 ∧
    stopsWith (bsnew { params with bufMax := 16 } (withArg 129)) = some (.fatal .resourceLimit) := by decide

theorem test_bsview_keeps_bytes :
    leaves (bsview params { withArg 1 with buf := [(0, 0x0F)] }) (fun t => (t.capacity, bufOf t)) =
      some (8, [some 0x0F]) := by decide

theorem test_bsview_resource_limit :
    stopsWith (bsview { params with bufMax := 16 } (withArg 17)) = some (.fatal .resourceLimit) := by decide

theorem test_bscap : leaves (bscap (withStream 8 3 5 [])) State.res = some 64 := by decide

theorem test_bscount : leaves (bscount (withStream 2 0 2 [])) State.res = some 6 := by decide

theorem test_wr1_last_bit :
    (stateOf (execWr1 0xFF (withStream 2 0 1 (zeros 2)))).map (fun t => (bufOf t, t.bsCur, t.bsRem)) =
      some ([some 0x01, some 0], 1, 8) := by decide

theorem test_wr1_full_after_reset :
    (stateOf (execWr1 1 State.reset)).map (fun t => (t.fatal, t.fcause, t.fcmd)) =
      some (true, some .capacityExceeded, 0x10000001) := by decide

theorem test_wr2_split :
    (stateOf (execWr2 0x5A (withStream 2 0 1 (zeros 2)))).map (fun t => (bufOf t, t.bsCur, t.bsRem)) =
      some ([some 0x01, some 0x00], 1, 7) := by decide

theorem test_wr2_capacity :
    (stateOf (execWr2 0xFF (withStream 1 0 1 [(0, 0xFE)]))).map (fun t => (bufOf t, t.bsCur, t.bsRem, t.fcmd)) =
      some ([some 0xFE], 0, 1, 0x110000FF) := by decide

theorem test_wr4_view_or :
    (stateOf (execWr4 0xA (withStream 1 0 8 [(0, 0x0F)]))).map (fun t => (bufOf t, t.count)) =
      some ([some 0xAF], 4) := by decide

theorem test_wr4_split :
    (stateOf (execWr4 0x5A (withStream 2 0 2 (zeros 2)))).map bufOf = some [some 0x02, some 0x80] := by decide

theorem test_wr8_or_not_store :
    (stateOf (execWr8 0 (withStream 2 0 5 [(0, 0xE0), (1, 0)]))).map (fun t => (bufOf t, t.bsCur, t.bsRem)) =
      some ([some 0xE0, some 0], 1, 5) := by decide

theorem test_wr8_split :
    (stateOf (execWr8 0x5A (withStream 2 0 3 (zeros 2)))).map bufOf = some [some 0x02, some 0xD0] := by decide

/-! ## Lookup and digits (95_test_vectors.md 2.3, 2.4) -/

theorem test_anlookup_found :
    (stateOf (execAnlookup 0x3A State.reset)).map (fun t => (t.res, t.rcode)) = some (44, .ok) := by decide

theorem test_anlookup_not_found :
    (stateOf (execAnlookup 0x2C State.reset)).map (fun t => (t.res, t.rcode, t.fatal)) =
      some (0xFFFFFFFFFFFFFFFF, .notFound, false) := by decide

theorem test_digits_boundary :
    leaves (digits (withArg 9999999999999999999)) State.res = some 19 ∧
    leaves (digits (withArg 10000000000000000000)) State.res = some 20 := by decide

theorem test_digits_zero : leaves (digits State.reset) State.res = some 1 := by decide

/-! ## Constructors (95_test_vectors.md 2.5) -/

theorem test_segnum :
    leaves (segnum (withArg 673)) (fun t => (t.segMode, segOf t, t.res)) =
      some (some .numeric, [some 6, some 7, some 3], 3) := by decide

theorem test_segnum_largest :
    leaves (segnum (withArg 18446744073709551615)) segOf =
      some ([1, 8, 4, 4, 6, 7, 4, 4, 0, 7, 3, 7, 0, 9, 5, 5, 1, 6, 1, 5].map fun d => some d) := by decide

theorem test_segalnum :
    leaves (segalnum params (withText [0x41, 0x42, 0x43])) (fun t => (t.segMode, segOf t, t.rcode)) =
      some (some .alnum, [some 10, some 11, some 12], .ok) := by decide

theorem test_segalnum_invalid :
    leaves (segalnum params (withSegment .byte [1] (withText [0x41, 0x42, 0x2D, 0x63])))
      (fun t => (t.segMode, t.segLen, t.res, t.rcode)) = some (none, 0, 3, .invalidChar) := by decide

theorem test_segtext_repairs :
    leaves (segtext params (withText [0x00, 0xFF])) (fun t => (t.segMode, segOf t, t.res)) =
      some (some .byte, [some 0x00, some 0xEF, some 0xBF, some 0xBD], 4) := by decide

theorem test_segtext_resource_limit :
    leaves (segtext { params with segMax := 20 } (withText (List.replicate 6 0xFF))) State.segLen = some 18 ∧
    stopsWith (segtext { params with segMax := 20 } (withText (List.replicate 7 0xFF))) =
      some (.fatal .resourceLimit) := by decide

theorem test_repair_policies :
    repair params [0x41, 0xC0, 0xAF, 0x42] = [0x41, 0xEF, 0xBF, 0xBD, 0xEF, 0xBF, 0xBD, 0x42] ∧
    repair perRun [0x41, 0xC0, 0xAF, 0x42] = [0x41, 0xEF, 0xBF, 0xBD, 0x42] := by decide

theorem test_wellFormedLength_edges :
    wellFormedLength [0xED, 0x9F, 0xBF] = 3 ∧ wellFormedLength [0xED, 0xA0, 0x80] = 0 ∧
    wellFormedLength [0xF4, 0x8F, 0xBF, 0xBF] = 4 ∧ wellFormedLength [0xF4, 0x90, 0x80, 0x80] = 0 ∧
    wellFormedLength [0xC3] = 0 := by decide

/-! ## Sizing and encoding (95_test_vectors.md 2.6 to 2.9) -/

theorem test_segdatabits :
    leaves (segdatabits (withSegment .alnum helloWorld State.reset)) State.res = some 61 ∧
    leaves (segdatabits (withSegment .numeric [1, 2, 3, 4, 5] State.reset)) State.res = some 17 := by decide

theorem test_segdatabits_no_segment : stopsWith (segdatabits State.reset) = some (.fatal .unrecognizedMode) := by decide

theorem test_seglenbits_bands :
    leaves (seglenbits 9 (withSegment .alnum [10] State.reset)) State.res = some 9 ∧
    leaves (seglenbits 10 (withSegment .alnum [10] State.reset)) State.res = some 11 ∧
    leaves (seglenbits 27 (withSegment .byte [0x61] State.reset)) State.res = some 16 := by decide

theorem test_seglenbits_checks :
    stopsWith (seglenbits 41 (withSegment .byte [0x61] State.reset)) = some (.fatal .invalidVersion) ∧
    stopsWith (seglenbits 0 State.reset) = some (.fatal .unrecognizedMode) := by decide

theorem test_segencode_hello_world :
    (stateOf (execSegencode 1 (withSegment .alnum helloWorld (withStream 10 0 8 (zeros 10))))).map
        (fun t => (bufOf t, t.count, t.rcode)) =
      some ([0x20, 0x5B, 0x0B, 0x78, 0xD1, 0x72, 0xDC, 0x4D, 0x43, 0x40].map fun b => some b, 74, .ok) := by decide

theorem test_segencode_number_and_capacity :
    (stateOf (execSegencode 10 (withSegment .numeric [6, 7, 3] (withStream 4 0 8 (zeros 4))))).map bufOf =
      some [some 0x10, some 0x03, some 0xA8, some 0x40] ∧
    stopsWith (segencode 1 (withSegment .numeric [6, 7, 3] (withStream 2 0 8 (zeros 2)))) =
      some (.fatal .capacityExceeded) := by decide

theorem test_segpayload_number :
    (stateOf (execSegpayload (withSegment .numeric [6, 7, 3] (withStream 2 0 8 (zeros 2))))).map
        (fun t => (bufOf t, t.count)) = some ([some 0xA8, some 0x40], 10) := by decide

theorem test_segpayload_unaligned :
    (stateOf (execSegpayload (withSegment .numeric [1, 2, 3, 4] (withStream 3 0 5 [(0, 0xE0), (1, 0), (2, 0)])))).map
        (fun t => (bufOf t, t.bsCur, t.bsRem)) = some ([some 0xE3, some 0xDA, some 0x00], 2, 7) := by decide

/-! ## Unwritten bytes, the port and the assembler -/

theorem test_unwritten_bytes_stop :
    faultOf (execWr8 1 (withStream 2 0 4 [(0, 0)])) = some .unwrittenBuf ∧
    stopsWith (segtext params { withText [0x61] with arg := 2 }) = some (.unknown .unwrittenTxt) ∧
    stopsWith (segalnum params { withText [0x61] with arg := 2 }) = none := by decide

theorem test_status_word :
    { State.reset with fatal := true, fcause := some .resourceLimit, rcode := .invalidChar }.statusWord = 0x251 := by
  decide

theorem test_readReg :
    (withStream 2 1 3 []).readReg params 7 = 3 ∧ (withSegment .byte [] State.reset).readReg params 8 = 3 ∧
    State.reset.readReg params 10 = 4096 ∧ State.reset.readReg params 13 = 0 := by decide

theorem test_wrbits_example : chunks 10 3 = [(8, 0x00), (2, 0x3)] ∧ chunks 11 461 = [(8, 57), (2, 2), (1, 1)] := by decide

theorem test_assemble :
    assemble "WR1 0xFE ; a comment".toList = some 0x100000FE ∧ assemble "ANLOOKUP 'H'".toList = some 0x20000048 ∧
    assemble "WR1 256".toList = none := by decide

theorem test_unescape : unescape "a\\xFF".toList = some [0x61, 0xFF] ∧ regIndex "SEG_LEN" = some 9 := by decide

/-! ## Witnesses: encoding, steps, halt and reset -/

theorem witness_IllegalWordHaltsCore :
    State.reset.fatal = false ∧ decode 0xFF000000 = .illegal .unassignedOpcode ∧
    decode 0x10000100 = .illegal .reservedBits ∧ decode 0x3B0000FF = .illegal .immediateNotAllowed ∧
    decode 0x10000000 = .ok (.wr1 0) := by decide

theorem witness_StepRunsDecodedCommand :
    (withAccesses [.write (.reg 0 0xFFFFFFFF04000000)] State.reset).fatal = false ∧
    decode (BitVec.extractLsb' 0 32 (0xFFFFFFFF04000000 : RegWord)) = .ok .bscount := by decide

theorem witness_HaltedCoreIgnoresCommands :
    ∃ s : State, s.fatal = true ∧ s.pending = [.write (.reg 0 0x04000000)] :=
  ⟨withAccesses [.write (.reg 0 0x04000000)] (State.reset.takeFatal .illegalCommand 0), rfl, rfl⟩

theorem witness_HaltEndsOnlyAtReset (e : HostAccess) (he : e ∈ [.reset, .resetDuring (.reg 1 5), .readReg 3]) :
    ∃ s t : State, s.fatal = true ∧ s.pending.head? = some e ∧ step s = .next t := by
  refine ⟨withAccesses [e] (State.reset.takeFatal .illegalCommand 0), ?_⟩
  simp only [List.mem_cons, List.not_mem_nil, or_false] at he
  rcases he with rfl | rfl | rfl <;> exact ⟨_, rfl, rfl, rfl⟩

theorem witness_ResetSetsEveryPiece :
    ∃ s t : State, s.arg = 7 ∧ s.pending = [.reset] ∧ step s = .next t :=
  ⟨withAccesses [.reset] (withArg 7), _, rfl, rfl, rfl⟩

theorem witness_InterruptedWriteTakesAnyValue :
    (∃ s : State, s.pending = [.resetDuring (.reg 1 5)]) ∧
    (∃ s : State, s.pending = [.resetDuring (.cell .buf (Config.params.bufMax - 1) 5)] ∧
      Config.params.bufMax - 1 < Config.params.bufMax) ∧
    (∃ s : State, s.pending = [.resetDuring (.cell .buf Config.params.bufMax 5)]) ∧
    ∃ s : State, s.pending = [.resetDuring (.cell .txt 0 5)] ∧ 0 < Config.params.txtMax :=
  ⟨⟨withAccesses _ State.reset, rfl⟩,
    ⟨withAccesses _ State.reset, rfl, by have := Config.params_valid.bufMax_pos; omega⟩,
    ⟨withAccesses _ State.reset, rfl⟩, ⟨withAccesses _ State.reset, rfl, Config.params_valid.txtMax_pos⟩⟩

theorem witness_AccessesTakenInOrder :
    ∃ s t : State, s.pending = [.readReg 1, .reset] ∧ step s = .next t :=
  ⟨withAccesses [.readReg 1, .reset] State.reset, _, rfl, rfl⟩

theorem witness_IdleCoreHoldsState : (withArg 7).pending = [] := rfl

/-! ## Witnesses: the host port -/

theorem witness_OnlyArgIsWritable (k : Nat) : ∃ s : State, s.pending = [.write (.reg k 9)] :=
  ⟨withAccesses _ State.reset, rfl⟩

theorem cursorInv_of_one_byte : (withStream 1 0 8 (zeros 1)).CursorInv := ⟨by decide, by decide, by decide, by decide⟩

theorem streamInv_of_one_byte : (withStream 1 0 8 (zeros 1)).StreamInv Config.params :=
  ⟨cursorInv_of_one_byte, Config.params_valid.bufMax_pos⟩

/-- Every register index and every mode can be read in a state that meets the hypotheses. -/
theorem witness_HostRegisterReads (k : Nat) (m : Option Mode) :
    ∃ s : State, s.StreamInv Config.params ∧ s.segLen < 2 ^ 64 ∧ s.pending = [.readReg k] ∧ s.segMode = m :=
  ⟨{ withStream 1 0 8 (zeros 1) with pending := [.readReg k], segMode := m },
    ⟨⟨cursorInv_of_one_byte.rem_pos, cursorInv_of_one_byte.rem_le, cursorInv_of_one_byte.cur_le,
      cursorInv_of_one_byte.full⟩, Config.params_valid.bufMax_pos⟩, Nat.two_pow_pos 64, rfl, rfl⟩

theorem witness_StatusWordFields : ∃ s : State, s.pending = [.readReg 3] := ⟨withAccesses _ State.reset, rfl⟩

theorem witness_HostCellAccesses :
    (∀ e : HostAccess, ∃ s : State, s.pending = [e]) ∧ Config.params.bufMax - 1 < Config.params.bufMax ∧
    Config.params.txtMax - 1 < Config.params.txtMax ∧
    ∃ s : State, s.pending = [.readCell .buf 0] ∧ 0 < Config.params.bufMax ∧ s.buf.read 0 = some 0 := by
  have h1 := Config.params_valid.bufMax_pos
  have h2 := Config.params_valid.txtMax_pos
  exact ⟨fun e => ⟨withAccesses [e] State.reset, rfl⟩, by omega, by omega,
    ⟨withAccesses [.readCell .buf 0] (withStream 1 0 8 (zeros 1)), rfl, by omega, by decide⟩⟩

theorem witness_SegIsHostReadOnly :
    (∃ s : State, s.pending = [.write (.cell .seg 0 5)]) ∧
    ∃ s : State, s.segLen ≤ Config.params.segMax ∧ 0 < s.segLen ∧ s.seg.read 0 = some 7 ∧
      s.pending = [.readCell .seg 0] := by
  have h := Config.params_valid.segMax_ge
  exact ⟨⟨withAccesses _ State.reset, rfl⟩,
    ⟨withAccesses [.readCell .seg 0] (withSegment .byte [7] State.reset), by show 1 ≤ _; omega, by decide, by decide, rfl⟩⟩

theorem witness_HostReadsAreIdempotent (e : HostAccess) (he : e = .readReg 3 ∨ e = .readCell .txt 0) :
    ∃ s t : State, s.pending = [e, e] ∧ step s = .next t := by
  rcases he with rfl | rfl
  · exact ⟨withAccesses [.readReg 3, .readReg 3] State.reset, _, rfl, rfl⟩
  · exact ⟨withAccesses [.readCell .txt 0, .readCell .txt 0] State.reset, _, rfl, rfl⟩

/-! ## Witnesses: commands in general -/

/-- A state in which every command completes. -/
def ready : State := withSegment .numeric [5] (withStream 3 0 8 (zeros 3))

theorem ready_cursorInv : ready.CursorInv := ⟨by decide, by decide, by decide, by decide⟩

/-- One command of each row. -/
def oneOfEach : List Instr :=
  [.bsnew, .bsview, .bscap, .bscount, .wr1 1, .wr2 1, .wr4 1, .wr8 1, .anlookup 0x30, .digits] ++
    [.segnum, .segalnum, .segtext, .segdatabits, .seglenbits 1, .segencode 1, .segpayload]

/-- Each command completes in `ready`: the witness of `CompletionWritesResultCode`, `ResWrittenOnlyByItsCommands`,
`CommandsKeepArgAndText`, `StatusFieldsAreNotRead`, `ConstructorsFrame`, `ReportingCommandsFrame`,
`EncodersDoNotReadTextOrArg`, `StreamWritersFrame` and `StreamCreatorsFrame`. -/
theorem witness_everyCommandCompletes :
    ready.fatal = false ∧ ∀ i ∈ oneOfEach, (stateOf (exec i ready)).map State.fatal = some false := by decide

theorem witness_FatalErrorsArePrecise :
    State.reset.fatal = false ∧ (stateOf (step (State.reset.deliver 0x10000001))).map State.fatal = some true ∧
    (stateOf (step (State.reset.deliver 0x00000000))).map State.fatal = some true := by decide

/-- A fatal error and the two recoverable results; the completing case is `witness_everyCommandCompletes`. -/
theorem witness_CompletionWritesResultCode :
    (stateOf (exec (.wr1 1) State.reset)).map State.fatal = some true ∧
    (stateOf (exec (.anlookup 0x61) State.reset)).map State.rcode = some .notFound := by decide

theorem witness_ResWrittenOnlyByItsCommands :
    (stateOf (exec (.wr1 1) ready)).map State.fatal = some false ∧ Instr.op (.wr1 1) = .wr1 ∧
    (stateOf (exec .segdatabits State.reset)).map State.fatal = some true := by decide

/-- A command that stops, for the second clause; the first is `witness_everyCommandCompletes`. -/
theorem witness_StatusFieldsAreNotRead : faultOf (exec (.wr1 1) (withStream 1 0 8 [])) = some .unwrittenBuf := by decide

/-! ## Witnesses: bit_stream_buffer -/

theorem toNat_arg {n : Nat} (h : n < 2 ^ 64) : (withArg n).arg.toNat = n := by
  show (BitVec.ofNat 64 n).toNat = n
  rw [BitVec.toNat_ofNat, Nat.mod_eq_of_lt h]

/-- The largest length that fits, and one that does not. -/
theorem witness_BsnewCreatesZeroedStream :
    (∃ s : State, s.fatal = false ∧ (s.arg.toNat + 7) / 8 = Config.params.bufMax) ∧
    ∃ s : State, s.fatal = false ∧ Config.params.bufMax < (s.arg.toNat + 7) / 8 := by
  have h := Config.params_valid.bufMax_lt
  refine ⟨⟨withArg (8 * Config.params.bufMax), rfl, ?_⟩, ⟨withArg (2 ^ 64 - 1), rfl, ?_⟩⟩
  · rw [toNat_arg (by omega)]; omega
  · rw [toNat_arg (by norm_num)]; omega

theorem witness_BsviewWrapsHostBytes :
    (∃ s : State, s.fatal = false ∧ s.arg.toNat = Config.params.bufMax) ∧
    ∃ s : State, s.fatal = false ∧ s.arg.toNat = Config.params.bufMax + 1 := by
  have h := Config.params_valid.bufMax_lt
  exact ⟨⟨withArg Config.params.bufMax, rfl, toNat_arg (by omega)⟩,
    ⟨withArg (Config.params.bufMax + 1), rfl, toNat_arg (by omega)⟩⟩

theorem witness_QueriesReportCapacityAndCount :
    (withStream 1 0 8 (zeros 1)).fatal = false ∧ (withStream 1 0 8 (zeros 1)).StreamInv Config.params :=
  ⟨rfl, streamInv_of_one_byte⟩

/-- One bit too many; the exact rest of a byte; less than the rest. -/
theorem witness_WriteFillsCurrentByte :
    ((2, Instr.wr2 3) ∈ [(1, Instr.wr1 3), (2, .wr2 3), (4, .wr4 3), (8, .wr8 3)]) ∧
    8 * (withStream 1 0 1 (zeros 1)).bsLen < 8 * (withStream 1 0 1 (zeros 1)).bsCur + (8 - 1) + 2 ∧
    8 * (withStream 1 0 2 (zeros 1)).bsCur + (8 - 2) + 2 ≤ 8 * (withStream 1 0 2 (zeros 1)).bsLen ∧
    (withStream 1 0 2 (zeros 1)).buf.read 0 = some 0 ∧
    8 * (withStream 1 0 3 (zeros 1)).bsCur + (8 - 3) + 2 ≤ 8 * (withStream 1 0 3 (zeros 1)).bsLen := by decide

/-- The smallest and the largest split, the second up to the end of the stream but one bit. -/
theorem witness_WriteSplitsAcrossBytes :
    (2 = (withStream 2 0 1 (zeros 2)).bsRem + 1 ∧ 8 * 0 + (8 - 1) + 2 ≤ 8 * (withStream 2 0 1 (zeros 2)).bsLen) ∧
    (8 = (withStream 2 0 1 (zeros 2)).bsRem + 7 ∧ 8 * 0 + (8 - 1) + 8 ≤ 8 * (withStream 2 0 1 (zeros 2)).bsLen) ∧
    (withStream 2 0 1 (zeros 2)).buf.read 0 = some 0 ∧ (withStream 2 0 1 (zeros 2)).buf.read 1 = some 0 := by decide

theorem witness_WriteAppendsLowBits :
    ready.fatal = false ∧ ready.CursorInv ∧ ready.count + 8 ≤ ready.capacity ∧ ready.touchesWritten 8 :=
  ⟨rfl, ready_cursorInv, by decide, by decide⟩

theorem witness_UnwrittenStreamByteStops :
    (withStream 2 0 4 [(0, 0)]).CursorInv ∧
    (withStream 2 0 4 [(0, 0)]).count + 8 ≤ (withStream 2 0 4 [(0, 0)]).capacity ∧
    ¬(withStream 2 0 4 [(0, 0)]).touchesWritten 8 :=
  ⟨⟨by decide, by decide, by decide, by decide⟩, by decide, by decide⟩

/-! ## Witnesses: lookup and construction -/

/-- The first and the last character, and one outside. -/
theorem witness_AnlookupFollowsAlphabet :
    ("0123456789ABCDEFGHIJKLMNOPQRSTUVWXYZ $%*+-./:".toList.map Char.toNat)[0]? = some (0x30 : Byte).toNat ∧
    ("0123456789ABCDEFGHIJKLMNOPQRSTUVWXYZ $%*+-./:".toList.map Char.toNat)[44]? = some (0x3A : Byte).toNat ∧
    (0x61 : Byte).toNat ∉ "0123456789ABCDEFGHIJKLMNOPQRSTUVWXYZ $%*+-./:".toList.map Char.toNat := by decide

theorem witness_DigitsAndSegnum : (withArg 673).fatal = false := rfl

/-- A text of one valid character, and of a valid and an invalid one. -/
theorem witness_SegalnumAllOrNothing :
    (∃ s : State, s.fatal = false ∧ s.arg.toNat = 1 ∧ 1 ≤ Config.params.txtMax ∧ 1 ≤ Config.params.segMax ∧
      s.txt.read 0 = some 0x41 ∧ lut 0x41 = some 10) ∧
    ∃ s : State, s.fatal = false ∧ s.arg.toNat = 1 ∧ s.txt.read 0 = some 0x61 ∧ lut 0x61 = none := by
  have h := Config.params_valid.segMax_ge
  exact ⟨⟨withText [0x41], rfl, by decide, Config.params_valid.txtMax_pos, by omega, by decide, by decide⟩,
    ⟨withText [0x61], rfl, by decide, by decide, by decide⟩⟩

/-- The clauses about a size that is exceeded, on a part whose `TXT_MAX` is below the largest operand. -/
theorem witness_SegalnumAllOrNothing_limit (h : Config.params.txtMax < 2 ^ 64 - 1) :
    ∃ s : State, s.fatal = false ∧ s.arg.toNat = Config.params.txtMax + 1 :=
  ⟨withArg (Config.params.txtMax + 1), rfl, toNat_arg (by omega)⟩

theorem witness_SegtextStoresRepairedText :
    ∃ s : State, s.fatal = false ∧ s.arg.toNat = 1 ∧ 1 ≤ Config.params.txtMax ∧
      (∀ i < 1, s.txt.read i = [(0x61 : Byte)][i]?) ∧ (repair Config.params [0x61]).length ≤ Config.params.segMax := by
  have h := Config.params_valid.segMax_ge
  have hr : repair Config.params [0x61] = [0x61] := rfl
  exact ⟨withText [0x61], rfl, by decide, Config.params_valid.txtMax_pos, by decide, by rw [hr]; show 1 ≤ _; omega⟩

/-- The repaired text can be longer than `SEG_MAX`, on a part whose `TXT_MAX` exceeds its `SEG_MAX` and fits `ARG`. -/
theorem witness_SegtextStoresRepairedText_limit (h : Config.params.segMax < Config.params.txtMax)
    (h' : Config.params.txtMax < 2 ^ 64) :
    ∃ (s : State) (text : List Byte), s.fatal = false ∧ s.arg.toNat = Config.params.txtMax ∧
      text.length = Config.params.txtMax ∧ (∀ i < Config.params.txtMax, s.txt.read i = text[i]?) ∧
      Config.params.segMax < (repair Config.params text).length := by
  have hr : ∀ n, repair Config.params (List.replicate n 0x61) = List.replicate n 0x61 := by
    intro n
    unfold repair
    rw [List.length_replicate]
    induction n with
    | zero => rfl
    | succ n ih =>
      have hk : wellFormedLength ((0x61 : Byte) :: List.replicate n 0x61) = 1 := rfl
      rw [List.replicate_succ, repairLoop]
      simp only [hk]
      simpa using ih
  refine ⟨withText (List.replicate Config.params.txtMax 0x61), List.replicate Config.params.txtMax 0x61, rfl, ?_,
    List.length_replicate, ?_, by rw [hr, List.length_replicate]; exact h⟩
  · show (BitVec.ofNat 64 _).toNat = _
    rw [List.length_replicate, BitVec.toNat_ofNat, Nat.mod_eq_of_lt h']
  · intro i hi
    show (Memory.store [] 0 _).read i = _
    rw [Memory.read_store, if_pos (by rw [List.length_replicate]; omega)]
    rfl

theorem witness_UnwrittenTextStops :
    ∃ s : State, s.arg.toNat = 1 ∧ 1 ≤ Config.params.txtMax ∧ s.txt.read 0 = none ∧ 1 ≤ Config.params.segMax := by
  have h := Config.params_valid.segMax_ge
  exact ⟨withArg 1, by decide, Config.params_valid.txtMax_pos, by decide, by omega⟩

/-- Well formed, and ill formed before the end, before a well-formed and before an ill-formed byte. -/
theorem witness_RepairReplacesIllFormedUnits :
    wellFormedLength [0xC3, 0xA9] = 2 ∧ params.runPolicy = .perByte ∧ perRun.runPolicy = .perRun ∧
    wellFormedLength [0xFF] = 0 ∧ wellFormedLength [0xFF, 0x61] = 0 ∧ 0 < wellFormedLength [0x61] ∧
    wellFormedLength [0xFF, 0xFE] = 0 ∧ wellFormedLength [0xFE] = 0 := by decide

/-! ## Witnesses: sizing and encoding -/

theorem witness_SegdatabitsReportsPayloadSize (m : Mode) :
    (withSegment m [1, 2, 3] State.reset).segMode = some m ∧ (withSegment m [1, 2, 3] State.reset).fatal = false ∧
    State.reset.segMode = none := ⟨rfl, rfl, rfl⟩

/-- Every version is in exactly one clause; here the edges. -/
theorem witness_SeglenbitsReportsFieldWidth (m : Mode) :
    (withSegment m [1] State.reset).segMode = some m ∧ (withSegment m [1] State.reset).fatal = false ∧
    (0 : Byte).toNat < 1 ∧ 40 < (41 : Byte).toNat ∧ (9 : Byte).toNat ≤ 9 ∧ 10 ≤ (10 : Byte).toNat ∧
    (26 : Byte).toNat ≤ 26 ∧ 27 ≤ (27 : Byte).toNat ∧ (40 : Byte).toNat ≤ 40 := ⟨rfl, rfl, by decide⟩

/-- A well-formed sequence, and bytes at the edges of the ranges that start none. -/
theorem witness_ScalarEncodingsAreWellFormed :
    0 < wellFormedLength [0xF4, 0x8F, 0xBF, 0xBF] ∧ (0x80 : Byte).toNat = 0x80 ∧ (0xC1 : Byte).toNat = 0xC1 ∧
    (0xF5 : Byte).toNat = 0xF5 := by decide

/-- A segment that exactly fits the room left up to the end of its last byte (18 of 24 bits), and one that does not fit. -/
theorem witness_SegencodeAppendsSegment :
    ready.fatal = false ∧ ready.segMode = some .numeric ∧ bandOf (1 : Byte).toNat = some .low ∧ ready.CursorInv ∧
    ready.segLen = 1 ∧ (∀ i < ready.segLen, ready.seg.read i = [(5 : Byte)][i]?) ∧ ready.count + 18 ≤ ready.capacity ∧
    ready.touchesWritten 18 ∧ (withSegment .numeric [5] (withStream 2 0 8 (zeros 2))).capacity < 0 + (4 + 10 + 4) :=
  ⟨rfl, rfl, by decide, ready_cursorInv, rfl, by decide, by decide, by decide, by decide⟩

theorem witness_SegpayloadAppendsPayload :
    ready.fatal = false ∧ ready.segMode = some .numeric ∧ ready.CursorInv ∧
    (∀ i < ready.segLen, ready.seg.read i = [(5 : Byte)][i]?) ∧ ready.count + 4 ≤ ready.capacity ∧
    ready.touchesWritten 4 ∧ (withSegment .numeric [5] State.reset).capacity < 0 + dataBits .numeric 1 :=
  ⟨rfl, rfl, ready_cursorInv, by decide, by decide, by decide, by decide⟩

theorem witness_PayloadFieldsAndTags :
    (∀ e ∈ [(9 : Byte), 9, 9], e.toNat ≤ 9) ∧ ∀ e ∈ [(44 : Byte), 44], e.toNat ≤ 44 := by decide

theorem witness_UnwrittenEncodeTargetStops :
    let s := withSegment .numeric [5] (withStream 3 0 8 [(0, 0)])
    s.CursorInv ∧ s.segMode = some .numeric ∧ (∀ i < s.segLen, (s.seg.read i).isSome) ∧
    bandOf (1 : Byte).toNat = some .low ∧ s.count + 18 ≤ s.capacity ∧ ¬s.touchesWritten 18 ∧
    ¬(withSegment .numeric [5] (withStream 3 0 8 [])).touchesWritten 4 :=
  ⟨⟨by decide, by decide, by decide, by decide⟩, rfl, by decide, by decide, by decide, by decide, by decide⟩

/-- A fresh own buffer and a zeroed view with other bytes behind it. -/
theorem witness_EncodingIsReproducible :
    let s₁ := ready
    let s₂ := { ready with buf := Memory.write (zeros 3) 3 0xFF, arg := 9 }
    s₁.CursorInv ∧ s₂.CursorInv ∧ s₁.count = s₂.count ∧
    (∀ p < s₁.capacity, s₁.count ≤ p → streamBit s₁.buf p = some false ∧ streamBit s₂.buf p = some false) ∧
    (stateOf (exec (.segencode 1) s₁)).map State.fatal = some false ∧
    (stateOf (exec (.segencode 1) s₂)).map State.fatal = some false :=
  ⟨ready_cursorInv, ⟨by decide, by decide, by decide, by decide⟩, rfl, by decide, by decide, by decide⟩

theorem witness_SizedStreamTakesSegment :
    let s := withSegment .numeric [5] (withArg 18)
    s.fatal = false ∧ s.segMode = some .numeric ∧ bandOf (1 : Byte).toNat = some .low ∧
    (∀ i < s.segLen, (s.seg.read i).isSome) ∧
    s.arg.toNat = 4 + lengthBits .numeric .low + dataBits .numeric s.segLen ∧ (s.arg.toNat + 7) / 8 ≤ params.bufMax := by
  decide

/-- The stopping clause; the completing one is `witness_everyCommandCompletes`. -/
theorem witness_EncodersDoNotReadTextOrArg :
    faultOf (exec .segpayload (withSegment .numeric [5] (withStream 3 0 8 []))) = some .unwrittenBuf := by decide

/-- The frames of the writers, with the cursor invariants. -/
theorem witness_StreamWritersFrame :
    ready.CursorInv ∧ ∀ i ∈ [Instr.wr1 1, .wr2 1, .wr4 1, .wr8 1, .segencode 1, .segpayload],
      (stateOf (exec i ready)).map State.fatal = some false := ⟨ready_cursorInv, by decide⟩

/-- A state other than reset that meets the invariants and has a step. -/
theorem witness_StepKeepsInvariant : ∃ s t : State, s.arg = 7 ∧ s.Inv Config.params ∧ step s = .next t :=
  ⟨withArg 7, withArg 7, rfl,
    ⟨⟨⟨by decide, by decide, by decide, by decide⟩, Nat.zero_le _⟩,
      ⟨Nat.zero_le _, fun _ => rfl, fun i hi => absurd hi (Nat.not_lt_zero i), nofun, nofun⟩,
      ⟨fun _ => ⟨rfl, rfl⟩, nofun⟩,
      ⟨List.Pairwise.nil, List.Pairwise.nil, List.Pairwise.nil, fun _ _ => rfl, fun _ _ => rfl, fun _ _ => rfl⟩⟩, rfl⟩

/-- The full stream and one with a bit to write. -/
theorem witness_FullExactlyAtTheEnd : (withStream 1 1 8 []).CursorInv ∧ (withStream 1 0 1 []).CursorInv :=
  ⟨⟨by decide, by decide, by decide, by decide⟩, ⟨by decide, by decide, by decide, by decide⟩⟩

end Sys2Proof.Tests
end

/-! ## What a completing command can do -/

namespace Sys2Proof

/-- What a command that completes does: report a value, create a stream, append to it, or construct a segment. -/
inductive CommandKind where
  | report | create | append | construct
  deriving DecidableEq, Repr

/-- The kind of a command. -/
def Op.kind : Op → CommandKind
  | .bscap | .bscount | .anlookup | .digits | .segdatabits | .seglenbits => .report
  | .bsnew | .bsview => .create
  | .wr1 | .wr2 | .wr4 | .wr8 | .segencode | .segpayload => .append
  | .segnum | .segalnum | .segtext => .construct

end Sys2Proof

namespace Sys2Proof.Machine

/-- The largest element of a segment of the mode (10_state.md R48). -/
def Mode.elementMax : Mode → Nat
  | .numeric => 9
  | .alnum => 44
  | .byte => 255

/-- `Completion s i t`: the command `i` can complete from `s` in `t`. One constructor for each thing a command can do. -/
inductive Completion (s : State) : Instr → State → Prop where
  | report {i : Instr} {v : RegWord} {rc : ResultCode} (hi : i.op.kind = .report)
      (hrc : rc = .ok ∨ rc = .notFound ∧ ∃ c, i = .anlookup c) : Completion s i ((s.setRes v).setRcode rc)
  | create {i : Instr} {m : Memory} {len : Nat} (hi : i.op.kind = .create) (hlen : len ≤ Config.params.bufMax)
      (hm : m = s.buf ∨ m = s.buf.fillZero len) : Completion s i (((s.setBuf m).openStream len).setRcode .ok)
  | append {i : Instr} {u : State} (hi : i.op.kind = .append) (hframe : u = (s.setBuf u.buf).setCursor u.bsCur u.bsRem)
      (happ : s.CursorInv → ∃ bits, Appends s u bits) : Completion s i (u.setRcode .ok)
  | construct {i : Instr} {m : Mode} {es : List Byte} {v : RegWord} (hi : i.op.kind = .construct)
      (hlen : es.length ≤ Config.params.segMax) (hes : ∀ e ∈ es, e.toNat ≤ m.elementMax) :
      Completion s i (((s.setSegment m es).setRes v).setRcode .ok)
  | drop {v : RegWord} : Completion s .segalnum ((s.dropSegment.setRes v).setRcode .invalidChar)

theorem digitsOf_le (n : Nat) : ∀ e ∈ digitsOf n, e.toNat ≤ 9 := by
  intro e he
  obtain ⟨i, -, rfl⟩ := List.mem_map.1 he
  rw [BitVec.toNat_ofNat, digit]
  omega

theorem scanText_codes_le {m : Memory} {k i : Nat} {cs : List Byte} (h : scanText m k i = .ok (.codes cs)) :
    ∀ e ∈ cs, e.toNat ≤ 44 := by
  obtain ⟨hlen, hcode⟩ := scanText_codes h
  intro e he
  obtain ⟨j, hj, rfl⟩ := List.getElem_of_mem he
  obtain ⟨b, code, -, hlut, hget⟩ := hcode j (by omega)
  have hcs : cs[j] = BitVec.ofNat 8 code := by simpa [List.getElem?_eq_getElem hj] using hget
  have := lut_lt hlut
  rw [hcs, BitVec.toNat_ofNat]
  omega

theorem Completion.of_writeCommand {i : Instr} {n : Nat} {v : Byte} {s t : State} (hi : i.op.kind = .append)
    (hn : 1 ≤ n ∧ n ≤ 8) (h : writeCommand n v s = .ok t) : Completion s i t := by
  obtain ⟨u, hu, rfl⟩ := writeCommand_ok h
  exact .append hi (write_frame hu) fun hc => ⟨_, write_appends hn hc hu⟩

theorem Completion.of_writeFields {i : Instr} {fs : List (Nat × Nat)} {s u : State} (hi : i.op.kind = .append)
    (h : writeFields fs s = .ok u) : Completion s i (u.setRcode .ok) :=
  .append hi (writeFields_frame h) fun hc => ⟨_, writeFields_appends hc h⟩

/-- A command that completes does one of the five things. -/
theorem effectOf_ok {i : Instr} {s t : State} (h : effectOf i s = .ok t) : Completion s i t := by
  cases i with
  | bsnew =>
    obtain ⟨hlen, rfl⟩ := bsnew_ok h
    exact .create rfl hlen (.inr rfl)
  | bsview =>
    obtain ⟨hlen, rfl⟩ := bsview_ok h
    exact .create (m := s.buf) rfl hlen (.inl rfl)
  | bscap => cases h; exact .report rfl (.inl rfl)
  | bscount => cases h; exact .report rfl (.inl rfl)
  | wr1 v => exact .of_writeCommand rfl (by decide) h
  | wr2 v => exact .of_writeCommand rfl (by decide) h
  | wr4 v => exact .of_writeCommand rfl (by decide) h
  | wr8 v => exact .of_writeCommand rfl (by decide) h
  | anlookup c =>
    obtain ⟨k, -, rfl⟩ | ⟨-, rfl⟩ := anlookup_ok h
    · exact .report rfl (.inl rfl)
    · exact .report rfl (.inr ⟨rfl, c, rfl⟩)
  | digits => cases h; exact .report rfl (.inl rfl)
  | segnum =>
    cases h
    have hlen := digitCount_le s.operand
    have hmax := Config.params_valid.segMax_ge
    exact .construct rfl (by rw [digitsOf_length]; omega) (digitsOf_le _)
  | segalnum =>
    obtain ⟨-, hlen, ⟨j, -, rfl⟩ | ⟨cs, hcs, rfl⟩⟩ := segalnum_ok h
    · exact .drop
    · exact .construct rfl ((scanText_codes hcs).1 ▸ hlen) (scanText_codes_le hcs)
  | segtext =>
    obtain ⟨-, text, -, hlen, rfl⟩ := segtext_ok h
    exact .construct rfl hlen fun e _ => Nat.le_of_lt_succ e.isLt
  | segdatabits => obtain ⟨m, -, rfl⟩ := segdatabits_ok h; exact .report rfl (.inl rfl)
  | seglenbits v => obtain ⟨m, b, -, -, rfl⟩ := seglenbits_ok h; exact .report rfl (.inl rfl)
  | segencode v =>
    obtain ⟨m, b, es, u, -, -, -, -, hu, rfl⟩ := segencode_fields h
    exact .of_writeFields rfl hu
  | segpayload =>
    obtain ⟨m, es, u, -, -, -, hu, rfl⟩ := segpayload_fields h
    exact .of_writeFields rfl hu

/-- A command that answers a next state did one of the five things, or took the fault entry. -/
theorem exec_next_cases {i : Instr} {s t : State} (h : exec i s = .next t) :
    Completion s i t ∨ ∃ c, t = s.takeFatal c (encode i) := by
  obtain hok | ⟨c, -, rfl⟩ := exec_next h
  · exact .inl (effectOf_ok hok)
  · exact .inr ⟨c, rfl⟩

end Sys2Proof.Machine

/-! ## The invariants of 10_state.md, kept by every state operation -/

namespace Sys2Proof.Machine

namespace Memory

theorem read_write_beyond {m : Memory} {n a : Nat} (h : ∀ b, n ≤ b → m.read b = none) (ha : a < n) (v : Byte) :
    ∀ b, n ≤ b → (m.write a v).read b = none := by
  intro b hb
  rw [read_write_other m v (by omega), h b hb]

theorem read_fillZero_beyond {m : Memory} {n k : Nat} (h : ∀ b, n ≤ b → m.read b = none) (hk : k ≤ n) :
    ∀ b, n ≤ b → (m.fillZero k).read b = none := by
  intro b hb
  rw [read_fillZero, if_neg (by omega), h b hb]

theorem read_store_beyond {m : Memory} {n : Nat} {bs : List Byte} (h : ∀ b, n ≤ b → m.read b = none)
    (hl : bs.length ≤ n) : ∀ b, n ≤ b → (m.store 0 bs).read b = none := by
  intro b hb
  rw [read_store, if_neg (by omega), h b hb]

/-- What is read within the stored bytes is one of them. -/
theorem read_store_mem (m : Memory) {bs : List Byte} {i : Nat} (hi : i < bs.length) :
    ∃ b ∈ bs, (m.store 0 bs).read i = some b := by
  refine ⟨bs[i], List.getElem_mem hi, ?_⟩
  rw [read_store, if_pos (by omega), Nat.sub_zero, List.getElem?_eq_getElem hi]

end Memory

namespace State

theorem CursorInv.count_le {s : State} (h : s.CursorInv) : s.count ≤ s.capacity := by
  obtain ⟨hpos, hle, hcur, hfull⟩ := h
  unfold State.count State.capacity
  by_cases hc : s.bsCur = s.bsLen
  · have := hfull hc
    omega
  · omega

/-! Each invariant reads the fields named here and no others. -/

theorem StreamInv.congr {p : Params} {s t : State} (h : s.StreamInv p) (hlen : t.bsLen = s.bsLen)
    (hcur : t.bsCur = s.bsCur) (hrem : t.bsRem = s.bsRem) : t.StreamInv p := by
  obtain ⟨⟨h1, h2, h3, h4⟩, h5⟩ := h
  rw [← hlen] at h3 h4 h5
  rw [← hcur] at h3 h4
  rw [← hrem] at h1 h2 h4
  exact ⟨⟨h1, h2, h3, h4⟩, h5⟩

theorem SegmentInv.congr {p : Params} {s t : State} (h : s.SegmentInv p) (hmode : t.segMode = s.segMode)
    (hlen : t.segLen = s.segLen) (hseg : t.seg = s.seg) : t.SegmentInv p := by
  obtain ⟨h1, h2, h3, h4, h5⟩ := h
  rw [← hlen] at h1 h2 h3 h4 h5
  rw [← hmode] at h2 h4 h5
  rw [← hseg] at h3 h4 h5
  exact ⟨h1, h2, h3, h4, h5⟩

theorem HaltInv.congr {s t : State} (h : s.HaltInv) (hfatal : t.fatal = s.fatal) (hcause : t.fcause = s.fcause)
    (hcmd : t.fcmd = s.fcmd) : t.HaltInv := by
  obtain ⟨h1, h2⟩ := h
  rw [← hfatal, ← hcause] at h1 h2
  rw [← hcmd] at h1
  exact ⟨h1, h2⟩

theorem MemoryInv.congr {p : Params} {s t : State} (h : s.MemoryInv p) (hbuf : t.buf = s.buf) (htxt : t.txt = s.txt)
    (hseg : t.seg = s.seg) : t.MemoryInv p := by
  obtain ⟨h1, h2, h3, h4, h5, h6⟩ := h
  rw [← hbuf] at h1 h4
  rw [← htxt] at h2 h5
  rw [← hseg] at h3 h6
  exact ⟨h1, h2, h3, h4, h5, h6⟩

/-- The invariants say nothing of `ARG`, `RES`, `RCODE` and the model's own fields. -/
theorem Inv.of_free_fields {p : Params} {s t : State} (h : s.Inv p)
    (ht : t = { s with
      arg := t.arg, res := t.res, rcode := t.rcode, pending := t.pending, readData := t.readData
      resetCount := t.resetCount, segCount := t.segCount }) : t.Inv p := by
  rw [ht]
  exact ⟨h.stream.congr rfl rfl rfl, h.segment.congr rfl rfl rfl, h.halt.congr rfl rfl rfl,
    h.memory.congr rfl rfl rfl⟩

theorem Inv.setRes {p : Params} {s : State} (h : s.Inv p) (v : RegWord) : (s.setRes v).Inv p := h.of_free_fields rfl

theorem Inv.setRcode {p : Params} {s : State} (h : s.Inv p) (rc : ResultCode) : (s.setRcode rc).Inv p :=
  h.of_free_fields rfl

theorem Inv.setArg {p : Params} {s : State} (h : s.Inv p) (v : RegWord) : (s.setArg v).Inv p := h.of_free_fields rfl

theorem Inv.setPending {p : Params} {s : State} (h : s.Inv p) (l : List HostAccess) : (s.setPending l).Inv p :=
  h.of_free_fields rfl

theorem Inv.setReadData {p : Params} {s : State} (h : s.Inv p) (v : RegWord) : (s.setReadData v).Inv p :=
  h.of_free_fields rfl

/-- The fault entry sets `FCAUSE` together with `FATAL` (60_exceptions.md R274). -/
theorem Inv.takeFatal {p : Params} {s : State} (h : s.Inv p) (c : FatalCause) (w : CommandWord) :
    (s.takeFatal c w).Inv p :=
  ⟨h.stream.congr rfl rfl rfl, h.segment.congr rfl rfl rfl, ⟨nofun, fun _ => nofun⟩, h.memory.congr rfl rfl rfl⟩

theorem reset_inv (p : Params) : State.reset.Inv p where
  stream := ⟨⟨by decide, by decide, by decide, fun _ => rfl⟩, Nat.zero_le _⟩
  segment := ⟨Nat.zero_le _, fun _ => rfl, fun i hi => absurd hi (Nat.not_lt_zero i), nofun, nofun⟩
  halt := ⟨fun _ => ⟨rfl, rfl⟩, nofun⟩
  memory := ⟨.nil, .nil, .nil, fun _ _ => rfl, fun _ _ => rfl, fun _ _ => rfl⟩

theorem restart_inv (p : Params) (s : State) : s.restart.Inv p := (reset_inv p).of_free_fields rfl

theorem Inv.setBuf {p : Params} {s : State} {m : Memory} (h : s.Inv p) (hwf : m.wf)
    (hsize : ∀ a, p.bufMax ≤ a → m.read a = none) : (s.setBuf m).Inv p where
  stream := h.stream.congr rfl rfl rfl
  segment := h.segment.congr rfl rfl rfl
  halt := h.halt.congr rfl rfl rfl
  memory := ⟨hwf, h.memory.txt_wf, h.memory.seg_wf, hsize, h.memory.txt_size, h.memory.seg_size⟩

theorem Inv.setTxt {p : Params} {s : State} {m : Memory} (h : s.Inv p) (hwf : m.wf)
    (hsize : ∀ a, p.txtMax ≤ a → m.read a = none) : (s.setTxt m).Inv p where
  stream := h.stream.congr rfl rfl rfl
  segment := h.segment.congr rfl rfl rfl
  halt := h.halt.congr rfl rfl rfl
  memory := ⟨h.memory.buf_wf, hwf, h.memory.seg_wf, h.memory.buf_size, hsize, h.memory.seg_size⟩

theorem Inv.openStream {p : Params} {s : State} {len : Nat} (h : s.Inv p) (hlen : len ≤ p.bufMax) :
    (s.openStream len).Inv p where
  stream := ⟨⟨Nat.le_add_left 1 7, Nat.le_refl 8, Nat.zero_le _, fun _ => rfl⟩, hlen⟩
  segment := h.segment.congr rfl rfl rfl
  halt := h.halt.congr rfl rfl rfl
  memory := h.memory.congr rfl rfl rfl

/-- An append leaves the cursor invariants true, and writes only bytes that were written before. -/
theorem Inv.appends {p : Params} {s t : State} {bits : List Bool} (h : s.Inv p) (ha : Appends s t bits) : t.Inv p := by
  have hsize : ∀ a, p.bufMax ≤ a → t.buf.read a = none := fun a hle => by
    have hw := ha.written a
    rw [h.memory.buf_size a hle] at hw
    simpa using hw
  have hbuf := h.setBuf (ha.wf h.memory.buf_wf) hsize
  have hlen : t.bsLen = s.bsLen := by rw [ha.frame]; rfl
  refine ⟨⟨ha.inv, hlen ▸ h.stream.len_le⟩, ?_, ?_, ?_⟩ <;> rw [ha.frame]
  · exact hbuf.segment.congr rfl rfl rfl
  · exact hbuf.halt.congr rfl rfl rfl
  · exact hbuf.memory.congr rfl rfl rfl

theorem Inv.setSegment {p : Params} {s : State} {m : Mode} {es : List Byte} (h : s.Inv p)
    (hlen : es.length ≤ p.segMax) (hes : ∀ e ∈ es, e.toNat ≤ m.elementMax) : (s.setSegment m es).Inv p := by
  have hread : ∀ i < es.length, ∀ b, (s.seg.store 0 es).read i = some b → b.toNat ≤ m.elementMax := by
    intro i hi b hb
    obtain ⟨e, he, hre⟩ := Memory.read_store_mem s.seg hi
    obtain rfl : e = b := by simpa [hre] using hb
    exact hes e he
  constructor
  case stream => exact h.stream.congr rfl rfl rfl
  case halt => exact h.halt.congr rfl rfl rfl
  case memory =>
    exact ⟨h.memory.buf_wf, h.memory.txt_wf, Memory.wf_store h.memory.seg_wf es 0, h.memory.buf_size, h.memory.txt_size,
      Memory.read_store_beyond h.memory.seg_size hlen⟩
  case segment =>
    refine ⟨hlen, nofun, fun i hi => ?_, fun hm => ?_, fun hm => ?_⟩
    · obtain ⟨e, -, hre⟩ := Memory.read_store_mem s.seg hi
      exact Option.isSome_iff_exists.2 ⟨e, hre⟩
    · cases hm; exact hread
    · cases hm; exact hread

theorem Inv.dropSegment {p : Params} {s : State} (h : s.Inv p) : s.dropSegment.Inv p where
  stream := h.stream.congr rfl rfl rfl
  segment := ⟨Nat.zero_le _, fun _ => rfl, fun i hi => absurd hi (Nat.not_lt_zero i), nofun, nofun⟩
  halt := h.halt.congr rfl rfl rfl
  memory := h.memory.congr rfl rfl rfl

theorem Inv.writeCell {p : Params} {s : State} (h : s.Inv p) (sp : Space) (a : Nat) (v : Byte) :
    (writeCell p sp a v s).Inv p := by
  cases sp with
  | buf =>
    by_cases ha : a < p.bufMax
    · simp only [Machine.writeCell, if_pos ha]
      exact h.setBuf (Memory.wf_write h.memory.buf_wf a v) (Memory.read_write_beyond h.memory.buf_size ha v)
    · simpa only [Machine.writeCell, if_neg ha] using h
  | txt =>
    by_cases ha : a < p.txtMax
    · simp only [Machine.writeCell, if_pos ha]
      exact h.setTxt (Memory.wf_write h.memory.txt_wf a v) (Memory.read_write_beyond h.memory.txt_size ha v)
    · simpa only [Machine.writeCell, if_neg ha] using h
  | seg => exact h

end State

/-! ## The invariants, kept by commands and steps -/

theorem Completion.keeps_inv {s t : State} {i : Instr} (hc : Completion s i t) (h : s.Inv Config.params) :
    t.Inv Config.params := by
  cases hc with
  | report _ _ => exact (h.setRes _).setRcode _
  | create _ hlen hm =>
    refine ((State.Inv.setBuf h ?_ ?_).openStream hlen).setRcode _
    · obtain rfl | rfl := hm
      · exact h.memory.buf_wf
      · exact Memory.wf_fillZero h.memory.buf_wf _
    · obtain rfl | rfl := hm
      · exact h.memory.buf_size
      · exact Memory.read_fillZero_beyond h.memory.buf_size hlen
  | append _ _ happ =>
    obtain ⟨bits, ha⟩ := happ h.stream.cursor
    exact (h.appends ha).setRcode _
  | construct _ hlen hes => exact ((h.setSegment hlen hes).setRes _).setRcode _
  | drop => exact (h.dropSegment.setRes _).setRcode _

theorem exec_keeps_inv {i : Instr} {s t : State} (h : s.Inv Config.params) (he : exec i s = .next t) :
    t.Inv Config.params := by
  obtain hc | ⟨c, rfl⟩ := exec_next_cases he
  · exact hc.keeps_inv h
  · exact h.takeFatal c _

theorem runCommand_keeps_inv {w : CommandWord} {s t : State} (h : s.Inv Config.params)
    (hr : runCommand w s = .next t) : t.Inv Config.params := by
  obtain ⟨-, hs⟩ | ⟨-, why, -, hs⟩ | ⟨-, i, -, hs⟩ := runCommand_cases w s <;> rw [hs] at hr
  · cases hr; exact h
  · cases hr; exact h.takeFatal _ w
  · exact exec_keeps_inv h hr

theorem writeReg_keeps_inv {k : Nat} {v : RegWord} {s t : State} (h : s.Inv Config.params)
    (hw : writeReg k v s = .next t) : t.Inv Config.params := by
  unfold writeReg at hw
  split_ifs at hw
  · exact runCommand_keeps_inv h hw
  · cases hw; exact h.setArg v
  · cases hw; exact h

theorem restartDuring_inv (p : Params) (w : HostWrite) (s : State) : (restartDuring p w s).Inv p := by
  have h := State.restart_inv p s
  cases w with
  | cell sp a _ => exact h.writeCell sp a _
  | reg k _ =>
    unfold restartDuring
    dsimp only
    split_ifs
    · exact h.setArg _
    · exact h

theorem perform_keeps_inv {e : HostAccess} {s t : State} (h : s.Inv Config.params)
    (hp : perform Config.params e s = .next t) : t.Inv Config.params := by
  match e with
  | .write (.reg k v) => exact writeReg_keeps_inv h hp
  | .write (.cell sp a v) => cases hp; exact h.writeCell sp a v
  | .readReg k => cases hp; exact h.setReadData _
  | .readCell sp a => cases hp; exact h.setReadData _
  | .reset => cases hp; exact State.restart_inv _ s
  | .resetDuring w => cases hp; exact restartDuring_inv _ w s

theorem step_keeps_inv {s t : State} (h : s.Inv Config.params) (hs : step s = .next t) : t.Inv Config.params := by
  obtain ⟨-, hstep⟩ | ⟨e, rest, -, hstep⟩ := step_cases s <;> rw [hstep] at hs
  · cases hs; exact h
  · exact perform_keeps_inv (h.setPending rest) hs

/-- Settles O56: every operation a step is made of keeps the invariants, and `count() <= capacity()` follows from the
cursor invariants. -/
theorem stepKeepsInvariant : Obligations.StepKeepsInvariant := by
  intro s t h hs
  have ht := step_keeps_inv h hs
  exact ⟨ht, ht.stream.cursor.count_le⟩

/-- Settles O55. -/
theorem resetMeetsInvariant : Obligations.ResetMeetsInvariant := State.reset_inv Config.params

/-- Settles O57: below the end of the buffer at most `8 * BS_CUR + 7` bits are counted, at its end `BS_REM = 8`. -/
theorem fullExactlyAtTheEnd : Obligations.FullExactlyAtTheEnd := by
  intro s h
  have hle := h.count_le
  obtain ⟨hpos, hrem, hcur, hfull⟩ := h
  unfold State.count State.capacity at *
  refine ⟨rfl, hle, ⟨fun heq => by omega, fun heq => ?_⟩, by omega, by omega⟩
  have := hfull heq
  omega

end Sys2Proof.Machine

/-! ## Decoding an encoded command -/

namespace Sys2Proof

/-- Each mask covers `OPC`, `RSV` and, outside format I, `IMM8` (30_encoding.md R105). -/
theorem opcodeMap_mask_pattern : ∀ r ∈ opcodeMap,
    r.mask = BitVec.allOnes 8 ++ BitVec.allOnes 16 ++ (if r.op.format = .i then 0 else BitVec.allOnes 8) ∧
    r.pattern = r.op.opc ++ (0 : BitVec 16) ++ (0 : Byte) := by decide

/-- The opcode map finds a command by its opcode, so no two commands share one. -/
theorem Op.opc_injective {o o' : Op} (h : o.opc = o'.opc) : o = o' := by
  have hfind : ∀ o : Op, (opcodeMap.find? fun r => opcField r.pattern == o.opc).map OpRow.op = some o := by
    intro o
    cases o <;> decide
  have := hfind o
  rw [h, hfind o'] at this
  exact (Option.some.inj this).symm

theorem exists_row (o : Op) : ∃ r ∈ opcodeMap, r.op = o := by cases o <;> decide

theorem word_inj {o o' v v' : Byte} (h : o ++ (0 : BitVec 16) ++ v = o' ++ (0 : BitVec 16) ++ v') :
    o = o' ∧ v = v' := by
  obtain ⟨ho, -, hv⟩ := Laws.EncodingFields.fields o v
  obtain ⟨ho', -, hv'⟩ := Laws.EncodingFields.fields o' v'
  exact ⟨by rw [← ho, h, ho'], by rw [← hv, h, hv']⟩

theorem imm8_eq_zero : ∀ {i : Instr}, i.op.format ≠ .i → i.imm8 = 0
  | .bsnew, _ | .bsview, _ | .bscap, _ | .bscount, _ | .digits, _ => rfl
  | .segnum, _ | .segalnum, _ | .segtext, _ | .segdatabits, _ | .segpayload, _ => rfl
  | .wr1 _, h | .wr2 _, h | .wr4 _, h | .wr8 _, h | .anlookup _, h | .seglenbits _, h | .segencode _, h => absurd rfl h

/-- Masking an encoded command with a row's mask keeps the opcode, and the immediate where the row has none. -/
theorem encode_and_mask {r : OpRow} (hr : r ∈ opcodeMap) (i : Instr) :
    encode i &&& r.mask = i.op.opc ++ (0 : BitVec 16) ++ (if r.op.format = .i then 0 else i.imm8) := by
  rw [(opcodeMap_mask_pattern r hr).1, encode, BitVec.and_append, BitVec.and_append, BitVec.and_allOnes,
    BitVec.and_allOnes]
  by_cases hf : r.op.format = .i
  · rw [if_pos hf, if_pos hf]
    congr 1
    exact BitVec.and_zero
  · rw [if_neg hf, if_neg hf, BitVec.and_allOnes]

/-- An encoded command selects the row of its own opcode and no other (30_encoding.md R105). -/
theorem selects_encode {r : OpRow} (hr : r ∈ opcodeMap) (i : Instr) : r.selects (encode i) = true ↔ r.op = i.op := by
  rw [OpRow.selects, beq_iff_eq, encode_and_mask hr, (opcodeMap_mask_pattern r hr).2]
  constructor
  · intro h
    exact (Op.opc_injective (word_inj h).1).symm
  · intro h
    rw [h]
    split
    · rfl
    · next hf => rw [imm8_eq_zero hf]

theorem instr_op_imm8 (i : Instr) : i.op.instr i.imm8 = i := by cases i <;> rfl

/-- The encoding of every command decodes to it (30_encoding.md R100). -/
theorem decode_encode (i : Instr) : decode (encode i) = .ok i := by
  cases hfind : opcodeMap.find? fun r => r.selects (encode i) with
  | none =>
    obtain ⟨r, hr, hop⟩ := exists_row i.op
    exact absurd ((selects_encode hr i).2 hop) (List.find?_eq_none.1 hfind r hr)
  | some r =>
    have hsel : r.selects (encode i) = true := by simpa using List.find?_some hfind
    have hop := (selects_encode (List.mem_of_find?_eq_some hfind) i).1 hsel
    have himm : imm8Field (encode i) = i.imm8 := (Laws.EncodingFields.fields i.op.opc i.imm8).2.2
    simp only [decode, hfind, hop, himm, instr_op_imm8]

end Sys2Proof

/-! ## The host port: what a register access does -/

namespace Sys2Proof.Machine

theorem step_writeReg {s : State} {k : Nat} {v : RegWord} {rest : List HostAccess}
    (h : s.pending = .write (.reg k v) :: rest) : step s = writeReg k v (s.setPending rest) := by
  simp only [step, nextEvent, h, perform]

theorem step_readReg {s : State} {k : Nat} {rest : List HostAccess} (h : s.pending = .readReg k :: rest) :
    step s = .next { s with pending := rest, readData := s.readReg Config.params k } := by
  simp only [step, nextEvent, h, perform]
  rfl

theorem runCommand_ok {w : CommandWord} {i : Instr} {s : State} (hf : s.fatal = false) (hd : decode w = .ok i) :
    runCommand w s = exec i s := by
  simp [runCommand, State.halted, hf, hd]

/-- Settles O5: the port hands bits [31:0] of the value to `runCommand`, which on a running core is `exec` of what they
decode to. -/
theorem stepRunsDecodedCommand : Obligations.StepRunsDecodedCommand := by
  refine ⟨fun s v rest i hf hp hd => ?_, fun s i hf => ?_⟩
  · rw [step_writeReg hp]
    exact runCommand_ok (s := s.setPending rest) hf hd
  · rw [step_deliver, runCommand_ok hf (decode_encode i)]

/-- Settles O12. -/
theorem onlyArgIsWritable : Obligations.OnlyArgIsWritable := by
  intro s k v rest hp
  rw [step_writeReg hp, writeReg]
  refine ⟨fun hk => ?_, fun hk => ?_⟩
  · rw [if_neg (by omega), if_pos hk]
    rfl
  · rw [if_neg (by omega), if_neg (by omega)]
    rfl

theorem readReg_of_ge (p : Params) (s : State) {k : Nat} (hk : 13 ≤ k) : s.readReg p k = 0 := by
  obtain ⟨j, rfl⟩ := Nat.exists_eq_add_of_le' hk
  rfl

/-- Settles O13: the read answers `readReg`, and the stream registers fit 64 bits because `BUF_MAX < 2^61`. -/
theorem hostRegisterReads : Obligations.HostRegisterReads := by
  intro s k rest hinv hseg hp
  have hmax := Config.params_valid.bufMax_lt
  have hlen := hinv.len_le
  have hcur := hinv.cursor.cur_le
  have hrem := hinv.cursor.rem_le
  have hmode : ∀ m, s.segMode = m → s.readReg Config.params 8 = (modeField m).setWidth 64 := by
    rintro m rfl
    rfl
  refine ⟨s.readReg Config.params k, step_readReg hp, ?_⟩
  refine ⟨?cmd, ?arg, ?res, ?fcmd, ?bsLen, ?bsCur, ?bsRem, ?modeNone, ?modeNum, ?modeAlnum, ?modeByte, ?segLen,
    ?bufMax, ?txtMax, ?segMax, fun hk => readReg_of_ge _ s hk⟩ <;> rintro rfl
  case cmd => rfl
  case arg => rfl
  case res => rfl
  case fcmd => exact BitVec.toNat_setWidth_of_le (by decide)
  case bsLen => exact zext64_toNat (by omega)
  case bsCur => exact zext64_toNat (by omega)
  case bsRem => exact zext64_toNat (by omega)
  case modeNone => exact hmode none
  case modeNum => exact hmode (some .numeric)
  case modeAlnum => exact hmode (some .alnum)
  case modeByte => exact hmode (some .byte)
  case segLen => exact zext64_toNat hseg
  case bufMax => exact zext64_toNat (by omega)
  case txtMax => exact zext64_toNat
  case segMax => exact zext64_toNat

/-! ## The fields of `STATUS` -/

namespace State

/-- Every bit of `STATUS` (10_state.md R36). -/
theorem statusWord_getLsbD (s : State) (i : Nat) : s.statusWord.getLsbD i =
    if i < 1 then s.fatal else if i < 4 then false else if i < 8 then (fcauseField s.fcause).getLsbD (i - 4)
    else if i < 12 then s.rcode.code.getLsbD (i - 8) else false := by
  simp only [statusWord, BitVec.getLsbD_append, Nat.sub_sub]
  by_cases h1 : i < 1
  · simp [h1]
  rw [if_neg h1, if_neg h1]
  by_cases h4 : i < 4
  · simp [h4, show i - 1 < 3 by omega]
  rw [if_neg h4, if_neg (by omega)]
  by_cases h8 : i < 8
  · simp [h8, show i - (1 + 3) < 4 by omega]
  rw [if_neg h8, if_neg (by omega)]
  by_cases h12 : i < 12
  · simp [h12, show i - (1 + (3 + 4)) < 4 by omega]
  rw [if_neg h12, if_neg (by omega)]
  simp

theorem statusWord_fatal (s : State) : s.statusWord.getLsbD 0 = s.fatal := s.statusWord_getLsbD 0

theorem statusWord_reserved_low (s : State) : s.statusWord.extractLsb' 1 3 = 0 := by
  ext i hi
  rw [BitVec.getElem_extractLsb', statusWord_getLsbD, if_neg (by omega), if_pos (by omega)]
  simp

theorem statusWord_fcause (s : State) : s.statusWord.extractLsb' 4 4 = fcauseField s.fcause := by
  ext i hi
  rw [BitVec.getElem_extractLsb', statusWord_getLsbD, if_neg (by omega), if_neg (by omega), if_pos (by omega),
    Nat.add_sub_cancel_left, BitVec.getLsbD_eq_getElem]

theorem statusWord_rcode (s : State) : s.statusWord.extractLsb' 8 4 = s.rcode.code := by
  ext i hi
  rw [BitVec.getElem_extractLsb', statusWord_getLsbD, if_neg (by omega), if_neg (by omega), if_neg (by omega),
    if_pos (by omega), Nat.add_sub_cancel_left, BitVec.getLsbD_eq_getElem]

theorem statusWord_reserved_high (s : State) : s.statusWord.extractLsb' 12 52 = 0 := by
  ext i hi
  rw [BitVec.getElem_extractLsb', statusWord_getLsbD, if_neg (by omega), if_neg (by omega), if_neg (by omega),
    if_neg (by omega)]
  simp

end State

/-- Settles O14. -/
theorem statusWordFields : Obligations.StatusWordFields := by
  intro s rest hp
  refine ⟨s.statusWord, step_readReg hp, s.statusWord_fatal, s.statusWord_reserved_low, s.statusWord_reserved_high,
    ?_, ?_⟩
  · rw [s.statusWord_fcause]
    match s.fcause with
    | none => rfl
    | some c => cases c <;> rfl
  · rw [s.statusWord_rcode]
    cases s.rcode <;> rfl

/-! ## What commands leave unchanged -/

/-- Settles O19: a fault entry keeps `RCODE`, and each kind of completion writes a code that its command may write. -/
theorem completionWritesResultCode : Obligations.CompletionWritesResultCode := by
  intro i s t hf h
  rw [State.statusWord_rcode, State.statusWord_rcode]
  obtain hok | ⟨c, -, rfl⟩ := exec_next h
  · obtain ⟨-, -, -, hfatal, hcause, hcmd, -, -⟩ := effectOf_ok_frame hok
    refine ⟨fun ht => absurd (hfatal.symm.trans ht) (by simp [hf]), fun _ => ⟨hcause, hcmd, ?_⟩⟩
    cases effectOf_ok hok with
    | report _ hrc =>
      obtain rfl | ⟨rfl, hi⟩ := hrc
      · exact .inl ⟨rfl, rfl⟩
      · exact .inr (.inl ⟨rfl, rfl, hi⟩)
    | create => exact .inl ⟨rfl, rfl⟩
    | append => exact .inl ⟨rfl, rfl⟩
    | construct => exact .inl ⟨rfl, rfl⟩
    | drop => exact .inr (.inr ⟨rfl, rfl, rfl⟩)
  · exact ⟨fun _ => ⟨rfl, rfl⟩, nofun⟩

theorem kind_of_not_resOp {o : Op}
    (h : o ∉ [Op.bscap, .bscount, .anlookup, .digits, .segnum, .segalnum, .segtext, .segdatabits, .seglenbits]) :
    o.kind ≠ .report ∧ o.kind ≠ .construct := by
  cases o <;> revert h <;> decide

/-- Only reports and constructions write `RES` (10_state.md R35). -/
theorem Completion.res_eq {i : Instr} {s t : State} (h : Completion s i t) (hr : i.op.kind ≠ .report)
    (hc : i.op.kind ≠ .construct) : t.res = s.res := by
  cases h with
  | report hi => exact absurd hi hr
  | create => rfl
  | append _ hframe => rw [hframe]; rfl
  | construct hi => exact absurd hi hc
  | drop => exact absurd rfl hc

/-- Settles O20: the other commands create a stream or append to it, which leaves `RES`, and so does the fault entry. -/
theorem resWrittenOnlyByItsCommands : Obligations.ResWrittenOnlyByItsCommands := by
  intro i s t hf h hi
  obtain hok | ⟨c, -, rfl⟩ := exec_next h
  · obtain ⟨-, -, -, hfatal, -⟩ := effectOf_ok_frame hok
    obtain hi | ht := hi
    · obtain ⟨hr, hc⟩ := kind_of_not_resOp hi
      exact (effectOf_ok hok).res_eq hr hc
    · rw [hfatal, hf] at ht
      cases ht
  · rfl

/-- Settles O21. -/
theorem commandsKeepArgAndText : Obligations.CommandsKeepArgAndText := by
  intro i s t h
  obtain hok | ⟨c, -, rfl⟩ := exec_next h
  · obtain ⟨-, -, -, -, -, -, harg, htxt⟩ := effectOf_ok_frame hok
    exact ⟨harg, htxt, fun a => by rw [htxt]⟩
  · exact ⟨rfl, rfl, fun _ => rfl⟩

/-- A report writes `RES` and `RCODE` alone. -/
theorem Completion.report_frame {i : Instr} {s t : State} (h : Completion s i t) (hk : i.op.kind = .report) :
    t = (s.setRes t.res).setRcode t.rcode := by
  cases h with
  | report => rfl
  | create hi => simp [hi] at hk
  | append hi => simp [hi] at hk
  | construct hi => simp [hi] at hk
  | drop => cases hk

theorem kind_of_reportOp :
    ∀ o ∈ [Op.bscap, .bscount, .anlookup, .digits, .segdatabits, .seglenbits], o.kind = .report := by decide

/-- Settles O45: a reporting command writes `RES` and `RCODE`, or takes the fault entry. -/
theorem reportingCommandsFrame : Obligations.ReportingCommandsFrame := by
  intro i s t hi h
  obtain hc | ⟨c, rfl⟩ := exec_next_cases h
  · rw [hc.report_frame (kind_of_reportOp _ hi)]
    exact ⟨rfl, fun _ => rfl, fun _ => rfl, fun _ => rfl⟩
  · exact ⟨rfl, fun _ => rfl, fun _ => rfl, fun _ => rfl⟩

end Sys2Proof.Machine

/-! ## What commands do not read -/

namespace Sys2Proof.Machine

/-- `f` changes only state that the stream writers and the encoders neither read nor write. -/
structure StreamBlind (f : State → State) : Prop where
  bsLen : ∀ s, (f s).bsLen = s.bsLen
  bsCur : ∀ s, (f s).bsCur = s.bsCur
  bsRem : ∀ s, (f s).bsRem = s.bsRem
  buf : ∀ s, (f s).buf = s.buf
  segMode : ∀ s, (f s).segMode = s.segMode
  segLen : ∀ s, (f s).segLen = s.segLen
  seg : ∀ s, (f s).seg = s.seg
  setBuf : ∀ s m, f (s.setBuf m) = (f s).setBuf m
  setCursor : ∀ s cur rem, f (s.setCursor cur rem) = (f s).setCursor cur rem

/-- Two sequences whose parts differ by `f` differ by `g`. -/
theorem Effect.bind_map {f g : State → State} {x y : Effect} {k : State → Effect} (h : y = x.map f)
    (hk : ∀ s, k (f s) = (k s).map g) : (y >>= k) = (x >>= k).map g := by
  subst h
  cases x with
  | error e => rfl
  | ok s => exact hk s

section
variable {f g : State → State} (hf : StreamBlind f)
include hf

theorem StreamBlind.capacity (s : State) : (f s).capacity = s.capacity := by
  rw [State.capacity, State.capacity, hf.bsLen]

theorem StreamBlind.count (s : State) : (f s).count = s.count := by
  rw [State.count, State.count, hf.bsCur, hf.bsRem]

theorem StreamBlind.elements (s : State) : (f s).elements = s.elements := by
  rw [State.elements, State.elements, hf.seg, hf.segLen]

theorem StreamBlind.writeWithin (n : Nat) (u : Byte) (s : State) :
    writeWithin n u (f s) = (writeWithin n u s).map f := by
  simp only [Machine.writeWithin, hf.buf, hf.bsCur, hf.bsRem]
  cases orByte s.buf s.bsCur (u <<< (s.bsRem - n)) with
  | error e => rfl
  | ok buf =>
    simp only [Effect.ok_bind, Effect.pure_eq, Except.map, apply_ite f, hf.setCursor, hf.setBuf]

theorem StreamBlind.writeAcross (n : Nat) (u : Byte) (s : State) :
    writeAcross n u (f s) = (writeAcross n u s).map f := by
  simp only [Machine.writeAcross, hf.buf, hf.bsCur, hf.bsRem]
  cases orByte s.buf s.bsCur (u >>> (n - s.bsRem)) with
  | error e => rfl
  | ok buf₁ =>
    simp only [Effect.ok_bind]
    cases orByte buf₁ (s.bsCur + 1) ((u &&& mask (n - s.bsRem)) <<< (8 - (n - s.bsRem))) with
    | error e => rfl
    | ok buf₂ => simp only [Effect.ok_bind, Effect.pure_eq, Except.map, hf.setCursor, hf.setBuf]

theorem StreamBlind.write (n : Nat) (v : Byte) (s : State) : write n v (f s) = (write n v s).map f := by
  simp only [Machine.write, hf.capacity, hf.count, hf.bsRem]
  by_cases hc : s.capacity < s.count + n
  · rw [if_pos hc, if_pos hc]
    rfl
  rw [if_neg hc, if_neg hc]
  by_cases hn : n ≤ s.bsRem
  · rw [if_pos hn, if_pos hn, hf.writeWithin]
  · rw [if_neg hn, if_neg hn, hf.writeAcross]

theorem StreamBlind.writeChunks (cs : List (Nat × Byte)) (s : State) :
    writeChunks cs (f s) = (writeChunks cs s).map f := by
  induction cs generalizing s with
  | nil => rfl
  | cons c cs ih => exact Effect.bind_map (hf.write c.1 c.2 s) ih

theorem StreamBlind.writeFields (fs : List (Nat × Nat)) (s : State) :
    writeFields fs (f s) = (writeFields fs s).map f := by
  induction fs generalizing s with
  | nil => rfl
  | cons w fs ih => exact Effect.bind_map (hf.writeChunks (chunks w.1 w.2) s) ih

theorem StreamBlind.payload (m : Mode) (s : State) : payload m (f s) = (payload m s).map f := by
  simp only [Machine.payload, hf.elements]
  cases s.elements with
  | error e => rfl
  | ok es => exact hf.writeFields _ s

variable (hg : ∀ s, (f s).setRcode .ok = g (s.setRcode .ok))
include hg

/-- On completion `RCODE` is written, so the difference left after a command is `g`. -/
theorem StreamBlind.writeCommand (n : Nat) (v : Byte) (s : State) :
    writeCommand n v (f s) = (writeCommand n v s).map g :=
  Effect.bind_map (hf.write n v s) fun u => congrArg Except.ok (hg u)

theorem StreamBlind.segencode (v : Byte) (s : State) : segencode v (f s) = (segencode v s).map g := by
  simp only [Machine.segencode, hf.segMode, hf.segLen, hf.capacity, hf.count]
  cases s.segMode with
  | none => rfl
  | some m =>
    cases bandOf v.toNat with
    | none => rfl
    | some b =>
      dsimp only
      split_ifs
      · rfl
      · exact Effect.bind_map (hf.writeFields _ s) fun t =>
          Effect.bind_map (hf.payload m t) fun u => congrArg Except.ok (hg u)

theorem StreamBlind.segpayload (s : State) : segpayload (f s) = (segpayload s).map g := by
  simp only [Machine.segpayload, hf.segMode, hf.segLen, hf.capacity, hf.count]
  cases s.segMode with
  | none => rfl
  | some m =>
    dsimp only
    split_ifs
    · rfl
    · exact Effect.bind_map (hf.payload m s) fun u => congrArg Except.ok (hg u)

end

/-- The state with other values in `RCODE` and `FCAUSE`. -/
def State.withStatus (rc : ResultCode) (fc : Option FatalCause) (s : State) : State :=
  { s with rcode := rc, fcause := fc }

/-- The state with another value in `FCAUSE`. -/
def State.withFcause (fc : Option FatalCause) (s : State) : State := { s with fcause := fc }

theorem withStatus_streamBlind (rc : ResultCode) (fc : Option FatalCause) : StreamBlind (State.withStatus rc fc) where
  bsLen _ := rfl
  bsCur _ := rfl
  bsRem _ := rfl
  buf _ := rfl
  segMode _ := rfl
  segLen _ := rfl
  seg _ := rfl
  setBuf _ _ := rfl
  setCursor _ _ _ := rfl

theorem setRcode_withStatus (rc : ResultCode) (fc : Option FatalCause) (s : State) :
    (s.withStatus rc fc).setRcode .ok = (s.setRcode .ok).withFcause fc := rfl

/-- No command reads `RCODE` or `FCAUSE`: a completing one writes `RCODE` and leaves `FCAUSE` (10_state.md R37, R38). -/
theorem effectOf_withStatus (rc : ResultCode) (fc : Option FatalCause) (i : Instr) (s : State) :
    effectOf i (s.withStatus rc fc) = (effectOf i s).map (State.withFcause fc) := by
  have hf := withStatus_streamBlind rc fc
  have hg := setRcode_withStatus rc fc
  have hop : (s.withStatus rc fc).operand = s.operand := rfl
  have htxt : (s.withStatus rc fc).txt = s.txt := rfl
  have htext : ∀ n, (s.withStatus rc fc).text n = s.text n := fun _ => rfl
  cases i with
  | bsnew =>
    simp only [effectOf, bsnew, hop]
    split_ifs <;> rfl
  | bsview =>
    simp only [effectOf, bsview, hop]
    split_ifs <;> rfl
  | bscap => rfl
  | bscount => rfl
  | wr1 v => exact hf.writeCommand hg 1 v s
  | wr2 v => exact hf.writeCommand hg 2 v s
  | wr4 v => exact hf.writeCommand hg 4 v s
  | wr8 v => exact hf.writeCommand hg 8 v s
  | anlookup c =>
    simp only [effectOf, anlookup]
    cases lut c <;> rfl
  | digits => rfl
  | segnum => rfl
  | segalnum =>
    simp only [effectOf, segalnum, hop, htxt]
    split_ifs
    · rfl
    · rfl
    · cases scanText s.txt s.operand 0 with
      | error e => rfl
      | ok r => cases r <;> rfl
  | segtext =>
    simp only [effectOf, segtext, hop, htext]
    split_ifs
    · rfl
    · cases s.text s.operand with
      | error e => rfl
      | ok text =>
        simp only [Effect.ok_bind]
        split_ifs <;> rfl
  | segdatabits =>
    simp only [effectOf, segdatabits, hf.segMode]
    cases s.segMode <;> rfl
  | seglenbits v =>
    simp only [effectOf, seglenbits, hf.segMode]
    cases s.segMode with
    | none => rfl
    | some m => cases bandOf v.toNat <;> rfl
  | segencode v => exact hf.segencode hg v s
  | segpayload => exact hf.segpayload hg s

/-- Settles O22: by `effectOf_withStatus` the two runs end in the same of the three ways of `conclude`. -/
theorem statusFieldsAreNotRead : Obligations.StatusFieldsAreNotRead := by
  intro i s rc fc
  have hrun : exec i { s with rcode := rc, fcause := fc } =
      conclude (encode i) (s.withStatus rc fc) ((effectOf i s).map (State.withFcause fc)) := by
    rw [← effectOf_withStatus rc]
    exact exec_eq i _
  refine ⟨fun t ht => ?_, fun e he => ?_⟩
  · obtain hok | ⟨c, hc, rfl⟩ := exec_next ht
    · exact ⟨t.rcode, fc, by rw [hrun, hok]; rfl⟩
    · exact ⟨rc, some c, by rw [hrun, hc]; rfl⟩
  · rw [exec_eq] at he
    rw [hrun, conclude_fault he]
    rfl

end Sys2Proof.Machine

/-! ## The size of a byte space -/

namespace Sys2Proof

/-- The number of cells of a space (20_memory.md R70). -/
def Params.spaceSize (p : Params) : Space → Nat
  | .buf => p.bufMax
  | .txt => p.txtMax
  | .seg => p.segMax

namespace Machine

/-! ## The order of the host's accesses -/

theorem exec_pending {i : Instr} {s t : State} (h : exec i s = .next t) : t.pending = s.pending := by
  obtain hok | ⟨c, -, rfl⟩ := exec_next h
  · obtain ⟨hpending, -⟩ := effectOf_ok_frame hok
    exact hpending
  · rfl

theorem runCommand_pending {w : CommandWord} {s t : State} (h : runCommand w s = .next t) : t.pending = s.pending := by
  obtain ⟨-, hs⟩ | ⟨-, why, -, hs⟩ | ⟨-, i, -, hs⟩ := runCommand_cases w s <;> rw [hs] at h
  · cases h; rfl
  · cases h; rfl
  · exact exec_pending h

theorem writeReg_pending {k : Nat} {v : RegWord} {s t : State} (h : writeReg k v s = .next t) :
    t.pending = s.pending := by
  unfold writeReg at h
  split_ifs at h
  · exact runCommand_pending h
  · cases h; rfl
  · cases h; rfl

@[simp] theorem writeCell_pending (p : Params) (sp : Space) (a : Nat) (v : Byte) (s : State) :
    (writeCell p sp a v s).pending = s.pending := by
  rw [writeCell_frame]
  rfl

@[simp] theorem restartDuring_pending (p : Params) (w : HostWrite) (s : State) :
    (restartDuring p w s).pending = s.pending := by
  cases w with
  | cell sp a _ => exact writeCell_pending p sp a _ s.restart
  | reg k _ =>
    unfold restartDuring
    dsimp only
    split_ifs <;> rfl

/-- An access of the host adds no access, takes none and moves none. -/
theorem perform_pending {e : HostAccess} {s t : State} (h : perform Config.params e s = .next t) :
    t.pending = s.pending := by
  match e with
  | .write (.reg k v) => exact writeReg_pending h
  | .write (.cell sp a v) => cases h; exact writeCell_pending _ sp a v s
  | .readReg k => cases h; rfl
  | .readCell sp a => cases h; rfl
  | .reset => cases h; rfl
  | .resetDuring w => cases h; exact restartDuring_pending _ w s

/-- Settles O10: the step takes the first access away, and performing it keeps the others. -/
theorem accessesTakenInOrder : Obligations.AccessesTakenInOrder := by
  intro s t h
  obtain ⟨hp, hs⟩ | ⟨e, rest, hp, hs⟩ := step_cases s <;> rw [hs] at h <;> rw [hp]
  · cases h; exact hp
  · exact perform_pending h

/-! ## The host port: what a cell access does -/

/-- The written cells of a space. -/
def State.space (s : State) : Space → Memory
  | .buf => s.buf
  | .txt => s.txt
  | .seg => s.seg

theorem step_writeCell {s : State} {sp : Space} {a : Nat} {v : Byte} {rest : List HostAccess}
    (h : s.pending = .write (.cell sp a v) :: rest) :
    step s = .next (writeCell Config.params sp a v (s.setPending rest)) := by
  simp only [step, nextEvent, h, perform]

theorem step_readCell {s : State} {sp : Space} {a : Nat} {rest : List HostAccess}
    (h : s.pending = .readCell sp a :: rest) :
    step s = .next { s with pending := rest, readData := (s.readCell Config.params sp a).setWidth 64 } := by
  simp only [step, nextEvent, h, perform]
  rfl

theorem writeCell_buf {p : Params} {a : Nat} (h : a < p.bufMax) (v : Byte) (s : State) :
    writeCell p .buf a v s = s.setBuf (s.buf.write a v) := if_pos h

theorem writeCell_txt {p : Params} {a : Nat} (h : a < p.txtMax) (v : Byte) (s : State) :
    writeCell p .txt a v s = s.setTxt (s.txt.write a v) := if_pos h

theorem writeCell_seg (p : Params) (a : Nat) (v : Byte) (s : State) : writeCell p .seg a v s = s := rfl

/-- Out of range a write is ignored (20_memory.md R73). -/
theorem writeCell_out_of_range {p : Params} {sp : Space} {a : Nat} (h : p.spaceSize sp ≤ a) (v : Byte) (s : State) :
    writeCell p sp a v s = s := by
  cases sp with
  | buf => exact if_neg (Nat.not_lt.2 h)
  | txt => exact if_neg (Nat.not_lt.2 h)
  | seg => exact writeCell_seg p a v s

/-- Out of range a read gives 0 (20_memory.md R73). -/
theorem readCell_out_of_range {p : Params} {sp : Space} {a : Nat} (h : p.spaceSize sp ≤ a) (s : State) :
    s.readCell p sp a = 0 := by
  cases sp <;> exact if_neg (Nat.not_lt.2 h)

/-- In range, and in `SEG` within the segment, a read gives the byte written there, else the free value of 93 U3. -/
theorem readCell_in_range {p : Params} {s : State} {sp : Space} {a : Nat} (h : a < p.spaceSize sp)
    (hseg : sp = .seg → a < s.segLen) :
    s.readCell p sp a = ((s.space sp).read a).getD (Config.unwrittenByte s.resetCount sp a) := by
  cases sp with
  | buf => exact if_pos h
  | txt => exact if_pos h
  | seg => exact (if_pos h).trans (if_pos (hseg rfl))

theorem step_writeCell_out_of_range {s : State} {sp : Space} {a : Nat} {v : Byte} {rest : List HostAccess}
    (hp : s.pending = .write (.cell sp a v) :: rest) (h : Config.params.spaceSize sp ≤ a) :
    step s = .next { s with pending := rest } := by
  rw [step_writeCell hp, writeCell_out_of_range h]
  rfl

theorem step_readCell_out_of_range {s : State} {sp : Space} {a : Nat} {rest : List HostAccess}
    (hp : s.pending = .readCell sp a :: rest) (h : Config.params.spaceSize sp ≤ a) :
    step s = .next { s with pending := rest, readData := 0 } := by
  rw [step_readCell hp, readCell_out_of_range h]
  rfl

theorem step_readCell_written {s : State} {sp : Space} {a : Nat} {v : Byte} {rest : List HostAccess}
    (hp : s.pending = .readCell sp a :: rest) (h : a < Config.params.spaceSize sp) (hseg : sp = .seg → a < s.segLen)
    (hv : (s.space sp).read a = some v) :
    step s = .next { s with pending := rest, readData := v.setWidth 64 } := by
  rw [step_readCell hp, readCell_in_range h hseg, hv, Option.getD_some]

/-- Settles O15: the cell written is a `Memory.write` in its space, and each read is one of the rules above. -/
theorem hostCellAccesses : Obligations.HostCellAccesses := by
  intro s a rest
  refine ⟨fun v hp => ⟨fun h => ?writeBuf, step_writeCell_out_of_range hp⟩,
    fun v hp => ⟨fun h => ?writeTxt, step_writeCell_out_of_range hp⟩,
    fun hp => ⟨fun v h hv => step_readCell_written hp h nofun hv, step_readCell_out_of_range hp⟩,
    fun hp => ⟨fun v h hv => step_readCell_written hp h nofun hv, step_readCell_out_of_range hp⟩,
    step_readCell_out_of_range⟩
  case writeBuf =>
    refine ⟨s.buf.write a v, ?_, fun b => s.buf.read_write a b v⟩
    rw [step_writeCell hp, writeCell_buf h]
    rfl
  case writeTxt =>
    refine ⟨s.txt.write a v, ?_, fun b => s.txt.read_write a b v⟩
    rw [step_writeCell hp, writeCell_txt h]
    rfl

/-- Settles O16: no write reaches `SEG`, and an element of the segment is in range because `SEG_LEN <= SEG_MAX`. -/
theorem segIsHostReadOnly : Obligations.SegIsHostReadOnly := by
  intro s a rest
  refine ⟨fun v hp => ?_, fun b hmax ha hb hp => ?_⟩
  · rw [step_writeCell hp, writeCell_seg]
    rfl
  · exact step_readCell_written hp (Nat.lt_of_lt_of_le ha hmax) (fun _ => ha) hb

/-! ## The same read made twice -/

/-- Settles O17: a read changes only `pending` and `readData`, which no read looks at. -/
theorem hostReadsAreIdempotent : Obligations.HostReadsAreIdempotent := by
  rintro s t e rest (⟨k, rfl⟩ | ⟨sp, a, rfl⟩) hp hs
  · have ht := Host.Outcome.next.inj (hs.symm.trans (step_readReg hp))
    have hsame : t.readReg Config.params k = t.readData := by rw [ht]; rfl
    have hagain := step_readReg (s := t) (k := k) (rest := rest) (by rw [ht])
    exact ⟨by rw [ht], by rw [hagain, hsame, ht]⟩
  · have ht := Host.Outcome.next.inj (hs.symm.trans (step_readCell hp))
    have hsame : (t.readCell Config.params sp a).setWidth 64 = t.readData := by rw [ht]; rfl
    have hagain := step_readCell (s := t) (sp := sp) (a := a) (rest := rest) (by rw [ht])
    exact ⟨by rw [ht], by rw [hagain, hsame, ht]⟩

end Machine
end Sys2Proof

/-! ## Decoding every word -/

namespace Sys2Proof

/-- A word is its three fields (30_encoding.md R101). -/
theorem fields_append (w : CommandWord) : opcField w ++ rsvField w ++ imm8Field w = w := by
  have hhigh : opcField w ++ rsvField w = w.extractLsb' 8 24 := BitVec.extractLsb'_append_extractLsb'_eq_extractLsb' rfl
  have hall : w.extractLsb' 8 24 ++ imm8Field w = w.extractLsb' 0 32 :=
    BitVec.extractLsb'_append_extractLsb'_eq_extractLsb' rfl
  rw [hhigh, hall, BitVec.extractLsb'_eq_self]

theorem word_eq_iff_fields {w w' : CommandWord} :
    w = w' ↔ opcField w = opcField w' ∧ rsvField w = rsvField w' ∧ imm8Field w = imm8Field w' := by
  constructor
  · rintro rfl
    exact ⟨rfl, rfl, rfl⟩
  · rintro ⟨hopc, hrsv, himm⟩
    rw [← fields_append w, hopc, hrsv, himm, fields_append]

@[simp] theorem opcField_and (w m : CommandWord) : opcField (w &&& m) = opcField w &&& opcField m :=
  BitVec.extractLsb'_and

@[simp] theorem rsvField_and (w m : CommandWord) : rsvField (w &&& m) = rsvField w &&& rsvField m :=
  BitVec.extractLsb'_and

@[simp] theorem imm8Field_and (w m : CommandWord) : imm8Field (w &&& m) = imm8Field w &&& imm8Field m :=
  BitVec.extractLsb'_and

@[simp] theorem opcField_encode (i : Instr) : opcField (encode i) = i.op.opc :=
  (Laws.EncodingFields.fields i.op.opc i.imm8).1

@[simp] theorem rsvField_encode (i : Instr) : rsvField (encode i) = 0 :=
  (Laws.EncodingFields.fields i.op.opc i.imm8).2.1

@[simp] theorem imm8Field_encode (i : Instr) : imm8Field (encode i) = i.imm8 :=
  (Laws.EncodingFields.fields i.op.opc i.imm8).2.2

@[simp] theorem instr_op (o : Op) (v : Byte) : (o.instr v).op = o := by cases o <;> rfl

theorem instr_imm8 (o : Op) (v : Byte) : (o.instr v).imm8 = if o.format = .i then v else 0 := by cases o <;> rfl

theorem opcodeMap_fields : ∀ r ∈ opcodeMap,
    (opcField r.mask = .allOnes 8 ∧ rsvField r.mask = .allOnes 16 ∧
      imm8Field r.mask = if r.op.format = .i then 0 else .allOnes 8) ∧
    opcField r.pattern = r.op.opc ∧ rsvField r.pattern = 0 ∧ imm8Field r.pattern = 0 := by decide

/-- `o.Accepts w`: the word is one of the command's words, in terms of its fields (30_encoding.md R101, R102). -/
def Op.Accepts (o : Op) (w : CommandWord) : Prop :=
  opcField w = o.opc ∧ rsvField w = 0 ∧ (o.format ≠ .i → imm8Field w = 0)

/-- A row's test by mask and match is the test of the three fields. -/
theorem selects_iff_accepts {r : OpRow} (hr : r ∈ opcodeMap) (w : CommandWord) :
    w &&& r.mask = r.pattern ↔ r.op.Accepts w := by
  obtain ⟨⟨hopc, hrsv, himm⟩, hpopc, hprsv, hpimm⟩ := opcodeMap_fields r hr
  rw [word_eq_iff_fields, opcField_and, rsvField_and, imm8Field_and, hopc, hrsv, himm, hpopc, hprsv, hpimm,
    BitVec.and_allOnes, BitVec.and_allOnes, Op.Accepts]
  by_cases hf : r.op.format = .i
  · simp [hf]
  · rw [if_neg hf, BitVec.and_allOnes]
    simp [hf]

/-- The words a row accepts are the encodings of its command, each with the word's own immediate. -/
theorem Op.Accepts.eq_encode {o : Op} {w : CommandWord} (h : o.Accepts w) : w = encode (o.instr (imm8Field w)) := by
  obtain ⟨hopc, hrsv, himm⟩ := h
  rw [word_eq_iff_fields, opcField_encode, rsvField_encode, imm8Field_encode, instr_op, instr_imm8]
  refine ⟨hopc, hrsv, ?_⟩
  split
  · rfl
  · next hf => exact himm hf

theorem Op.Accepts.decode {o : Op} {w : CommandWord} (h : o.Accepts w) : decode w = .ok (o.instr (imm8Field w)) := by
  conv_lhs => rw [h.eq_encode]
  exact decode_encode _

/-- What the decoder answers: the command of the row that it finds, or no row has the word. -/
theorem decode_cases (w : CommandWord) :
    (∃ r ∈ opcodeMap, r.op.Accepts w) ∨ (∀ r ∈ opcodeMap, ¬ r.op.Accepts w) ∧ ∃ why, decode w = .illegal why := by
  cases hfind : opcodeMap.find? fun r => r.selects w with
  | none =>
    refine .inr ⟨fun r hr hacc => ?_, whyIllegal w, by simp only [decode, hfind]⟩
    exact List.find?_eq_none.1 hfind r hr (beq_iff_eq.2 ((selects_iff_accepts hr w).2 hacc))
  | some r =>
    have hr := List.mem_of_find?_eq_some hfind
    have hsel : r.selects w = true := by simpa using List.find?_some hfind
    exact .inl ⟨r, hr, (selects_iff_accepts hr w).1 (beq_iff_eq.1 hsel)⟩

/-- Settles O2: a word that decodes is accepted by a row, so it is an encoding; and an encoding decodes to its command. -/
theorem decodeInvertsEncode : Obligations.DecodeInvertsEncode := by
  intro w i
  constructor
  · intro hd
    obtain ⟨r, -, hacc⟩ | ⟨-, why, hwhy⟩ := decode_cases w
    · have hi : r.op.instr (imm8Field w) = i := Decoded.ok.inj (hacc.decode.symm.trans hd)
      exact hi ▸ hacc.eq_encode
    · exact nomatch hd.symm.trans hwhy
  · rintro rfl
    exact decode_encode i

/-- Two rows of the opcode map differ in their commands. -/
theorem row_eq_of_op_eq : ∀ r ∈ opcodeMap, ∀ r' ∈ opcodeMap, r'.op = r.op → r' = r := by decide

/-- Settles O3: two rows that the word selects have its `OPC`, so they are one row. -/
theorem everyWordIsOneRowOrIllegal : Obligations.EveryWordIsOneRowOrIllegal := by
  intro w
  obtain ⟨r, hr, hacc⟩ | ⟨hnone, hill⟩ := decode_cases w
  · refine .inl ⟨r, hr, (selects_iff_accepts hr w).2 hacc, hacc.decode, fun r' hr' hsel => ?_⟩
    have hacc' := (selects_iff_accepts hr' w).1 hsel
    exact row_eq_of_op_eq r hr r' hr' (Op.opc_injective (hacc'.1.symm.trans hacc.1))
  · exact .inr ⟨fun r hr hsel => hnone r hr ((selects_iff_accepts hr w).1 hsel), hill⟩

/-- A word is illegal exactly when it is no command's word. -/
theorem decode_illegal_iff (w : CommandWord) : (∃ why, decode w = .illegal why) ↔ ∀ o : Op, ¬ o.Accepts w := by
  constructor
  · rintro ⟨why, hwhy⟩ o hacc
    exact nomatch hacc.decode.symm.trans hwhy
  · intro hnone
    obtain ⟨r, -, hacc⟩ | ⟨-, hill⟩ := decode_cases w
    · exact absurd hacc (hnone r.op)
    · exact hill

theorem Op.mem_all (o : Op) : o ∈ Op.all := by cases o <;> decide

/-- The `OPC` column of 30_encoding.md R105. -/
theorem mem_opcodes_iff (b : Byte) :
    b ∈ ([0x01, 0x02, 0x03, 0x04, 0x10, 0x11, 0x12, 0x13, 0x20, 0x21, 0x30, 0x31, 0x32, 0x38, 0x39, 0x3A, 0x3B] :
      List Byte) ↔ ∃ o : Op, o.opc = b := by
  change b ∈ Op.all.map Op.opc ↔ _
  simp [Op.mem_all]

/-- The opcodes of formats N and A. -/
theorem mem_noImmediate_opcodes_iff (b : Byte) :
    b ∈ ([0x01, 0x02, 0x03, 0x04, 0x21, 0x30, 0x31, 0x32, 0x38, 0x3B] : List Byte) ↔
      ∃ o : Op, o.format ≠ .i ∧ o.opc = b := by
  change b ∈ (Op.all.filter (·.format ≠ .i)).map Op.opc ↔ _
  simp [Op.mem_all]

/-- The three cases of 30_encoding.md R106 for a word that no command has. -/
theorem forall_not_accepts_iff (w : CommandWord) : (∀ o : Op, ¬ o.Accepts w) ↔
    (¬ ∃ o : Op, o.opc = opcField w) ∨ rsvField w ≠ 0 ∨
      (∃ o : Op, o.format ≠ .i ∧ o.opc = opcField w) ∧ imm8Field w ≠ 0 := by
  constructor
  · intro hnone
    by_contra! hlegal
    obtain ⟨⟨o, ho⟩, hrsv, himm⟩ := hlegal
    exact hnone o ⟨ho.symm, hrsv, fun hf => himm ⟨o, hf, ho⟩⟩
  · rintro (hopc | hrsv | ⟨⟨o', hf, ho'⟩, himm⟩) o ⟨ho, hzero, hnoimm⟩
    · exact hopc ⟨o, ho.symm⟩
    · exact hrsv hzero
    · obtain rfl := Op.opc_injective (ho'.trans ho)
      exact himm (hnoimm hf)

/-- Settles O1: each word is evaluated by the decoder. -/
theorem sampleWordsDecode : Obligations.SampleWordsDecode := by
  unfold Obligations.SampleWordsDecode
  decide

end Sys2Proof

namespace Sys2Proof.Machine

theorem runCommand_illegal {w : CommandWord} {why : Illegal} {s : State} (hf : s.fatal = false)
    (hd : decode w = .illegal why) : runCommand w s = .next (s.takeFatal .illegalCommand w) := by
  simp [runCommand, State.halted, hf, hd]

theorem runCommand_halted {s : State} (hf : s.fatal = true) (w : CommandWord) : runCommand w s = .next s :=
  if_pos hf

/-- Settles O4: a word is illegal when no row accepts it, which R106 splits into its three cases; the delivered word is
what `runCommand` meets. -/
theorem illegalWordHaltsCore : Obligations.IllegalWordHaltsCore := by
  intro w s hf
  refine ⟨?_, fun ⟨why, hwhy⟩ => ?_⟩
  · rw [mem_opcodes_iff, mem_noImmediate_opcodes_iff, decode_illegal_iff, forall_not_accepts_iff]
    rfl
  · rw [step_deliver, runCommand_illegal hf hwhy]
    rfl

/-- Settles O6. -/
theorem haltedCoreIgnoresCommands : Obligations.HaltedCoreIgnoresCommands := by
  intro s v rest hf hp
  rw [step_writeReg hp, writeReg, if_pos rfl]
  exact runCommand_halted (s := s.setPending rest) hf (commandOf v)

end Sys2Proof.Machine

/-! ## The commands that create a stream or report on it -/

namespace Sys2Proof.Machine

/-- `bits` rounded up to whole bytes, in one quotient (40_bitstream.md R140). -/
theorem bytesFor_eq (bits : Nat) : bytesFor bits = (bits + 7) / 8 := by
  unfold bytesFor
  split <;> omega

theorem bsnew_too_long {p : Params} {s : State} (h : p.bufMax < bytesFor s.operand) :
    bsnew p s = .error (.fatal .resourceLimit) := if_pos h

theorem bsnew_fits {p : Params} {s : State} (h : bytesFor s.operand ≤ p.bufMax) :
    bsnew p s = .ok (((s.setBuf (s.buf.fillZero (bytesFor s.operand))).openStream (bytesFor s.operand)).setRcode .ok) :=
  if_neg (Nat.not_lt.2 h)

theorem bsview_too_long {p : Params} {s : State} (h : p.bufMax < s.operand) :
    bsview p s = .error (.fatal .resourceLimit) := if_pos h

theorem bsview_fits {p : Params} {s : State} (h : s.operand ≤ p.bufMax) :
    bsview p s = .ok ((s.openStream s.operand).setRcode .ok) := if_neg (Nat.not_lt.2 h)

/-- Settles O23: the length is `bytesFor ARG`, and the new `BUF` is the old one with that many zeros filled in. -/
theorem bsnewCreatesZeroedStream : Obligations.BsnewCreatesZeroedStream := by
  rintro s len - rfl
  have hlen : bytesFor s.operand = (s.arg.toNat + 7) / 8 := bytesFor_eq s.arg.toNat
  rw [← hlen, exec_eq, effectOf]
  refine ⟨fun hlong => ?_, fun hfits => ⟨s.buf.fillZero (bytesFor s.operand), ?_, fun a ha => ?_, fun a ha => ?_⟩⟩
  · rw [bsnew_too_long hlong]
    rfl
  · rw [bsnew_fits hfits]
    rfl
  · rw [Memory.read_fillZero, if_pos ha]
  · rw [Memory.read_fillZero, if_neg (by omega)]

/-- Settles O24. -/
theorem bsviewWrapsHostBytes : Obligations.BsviewWrapsHostBytes := by
  intro s _
  rw [exec_eq, effectOf]
  refine ⟨fun hlong => ?_, fun hfits => ?_⟩
  · rw [bsview_too_long hlong]
    rfl
  · rw [bsview_fits hfits]
    rfl

/-- Settles O25: both numbers are at most `8 * BUF_MAX`, which fits 64 bits because `BUF_MAX < 2^61`. -/
theorem queriesReportCapacityAndCount : Obligations.QueriesReportCapacityAndCount := by
  intro s _ hinv
  have hmax := Config.params_valid.bufMax_lt
  have hlen := hinv.len_le
  have hcount := hinv.cursor.count_le
  unfold State.count State.capacity at hcount
  exact ⟨⟨zext64 s.capacity, zext64_toNat (by unfold State.capacity; omega), rfl⟩,
    ⟨zext64 s.count, zext64_toNat (by unfold State.count; omega), rfl⟩⟩

/-- Settles O54: a completing `BSNEW` fills zeros below the new length and keeps `FATAL`; a fault entry keeps `BUF`. -/
theorem streamCreatorsFrame : Obligations.StreamCreatorsFrame := by
  intro i s t hi h
  obtain hok | ⟨c, -, rfl⟩ := exec_next h
  · simp only [List.mem_cons, List.not_mem_nil, or_false] at hi
    obtain rfl | rfl := hi
    · obtain ⟨-, rfl⟩ := bsnew_ok hok
      refine ⟨rfl, fun a ha => ?_, fun _ => rfl, fun _ => rfl⟩
      obtain hbeyond | ⟨hfatal, hrunning⟩ := ha rfl
      · exact (s.buf.read_fillZero _ a).trans (if_neg (Nat.not_lt.2 hbeyond))
      · exact nomatch hfatal.symm.trans hrunning
    · obtain ⟨-, rfl⟩ := bsview_ok hok
      exact ⟨rfl, fun _ _ => rfl, fun _ => rfl, fun _ => rfl⟩
  · exact ⟨rfl, fun _ _ => rfl, fun _ => rfl, fun _ => rfl⟩

/-! ## The four writes -/

/-- The four writes with their widths (40_bitstream.md R153 to R156). -/
abbrev writeCommands (v : Byte) : List (Nat × Instr) := [(1, .wr1 v), (2, .wr2 v), (4, .wr4 v), (8, .wr8 v)]

theorem writeCommands_cases {n : Nat} {i : Instr} {v : Byte} (h : (n, i) ∈ writeCommands v) :
    1 ≤ n ∧ n ≤ 8 ∧ effectOf i = writeCommand n v := by
  simp only [List.mem_cons, List.not_mem_nil, or_false, Prod.mk.injEq] at h
  obtain ⟨rfl, rfl⟩ | ⟨rfl, rfl⟩ | ⟨rfl, rfl⟩ | ⟨rfl, rfl⟩ := h <;> exact ⟨by decide, by decide, rfl⟩

/-- A write that succeeds completes its command with `RCODE = OK` (40_bitstream.md R151). -/
theorem exec_write_ok {n : Nat} {i : Instr} {v : Byte} {s t : State} (h : (n, i) ∈ writeCommands v)
    (ht : write n v s = .ok t) : exec i s = .next (t.setRcode .ok) := by
  obtain ⟨-, -, heff⟩ := writeCommands_cases h
  rw [exec_eq, heff, writeCommand, ht]
  rfl

/-- A write without room takes the fault entry (40_bitstream.md R150). -/
theorem exec_write_full {n : Nat} {i : Instr} {v : Byte} {s : State} (h : (n, i) ∈ writeCommands v)
    (hfull : s.capacity < s.count + n) : exec i s = .next (s.takeFatal .capacityExceeded (encode i)) := by
  obtain ⟨-, -, heff⟩ := writeCommands_cases h
  rw [exec_eq, heff, writeCommand, write_full hfull]
  rfl

/-- Settles O26: the case of `write_full`, and the equation `write_within`. -/
theorem writeFillsCurrentByte : Obligations.WriteFillsCurrentByte := by
  intro n i v s hi _
  refine ⟨exec_write_full hi, fun b hroom hn hb => ⟨_, exec_write_ok hi (write_within hroom hn hb v), ?_, ?_⟩⟩
  · exact Memory.read_write_same _ _ _
  · exact fun a ha => Memory.read_write_other _ _ ha

/-- Settles O27: the equation `write_across`; of the `n` low bits of `v`, the low `k` are the low `k` bits of `v`. -/
theorem writeSplitsAcrossBytes : Obligations.WriteSplitsAcrossBytes := by
  intro n i v s k b b' hi _ hnk hk hroom hb hb'
  obtain ⟨-, hn, -⟩ := writeCommands_cases hi
  have hwrite := write_across hroom (by omega) hb hb' v
  rw [show n - s.bsRem = k by omega, lowBits_and_mask hn (by omega)] at hwrite
  refine ⟨_, exec_write_ok hi hwrite, ?_, ?_, fun a ha ha' => ?_⟩
  · rw [State.setCursor_buf, State.setBuf_buf, Memory.read_write_other _ _ (by omega), Memory.read_write_same]
    rfl
  · exact Memory.read_write_same _ _ _
  · rw [State.setCursor_buf, State.setBuf_buf, Memory.read_write_other _ _ ha', Memory.read_write_other _ _ ha]

/-- Settles O28: the write succeeds, and what it appends are the bits of the field of width `n` with the value of `v`. -/
theorem writeAppendsLowBits : Obligations.WriteAppendsLowBits := by
  intro n i v s hi _ hinv hroom hwritten
  obtain ⟨hpos, hle, -⟩ := writeCommands_cases hi
  obtain ⟨t, ht⟩ := write_completes ⟨hpos, hle⟩ hinv hroom hwritten v
  have happ := write_appends ⟨hpos, hle⟩ hinv ht
  have hlen : (fieldBits (n, v.toNat)).length = n := fieldBits_length _
  have hexec := exec_write_ok hi ht
  rw [happ.frame] at hexec
  refine ⟨t.buf, t.bsCur, t.bsRem, hexec, hlen ▸ happ.count, fun j hj => happ.bit j _ ?_, hlen ▸ happ.other⟩
  rw [fieldBits_byte, List.getElem?_map, List.getElem?_range hj, Option.map_some]

/-! ## What the stream writers leave unchanged -/

/-- A completing append writes the appended bits and `RCODE`. -/
theorem Completion.exists_appends {i : Instr} {s t : State} (h : Completion s i t) (hk : i.op.kind = .append)
    (hinv : s.CursorInv) : ∃ u bits, Appends s u bits ∧ t = u.setRcode .ok := by
  cases h with
  | report hi => simp [hi] at hk
  | create hi => simp [hi] at hk
  | append _ _ happ =>
    obtain ⟨bits, ha⟩ := happ hinv
    exact ⟨_, bits, ha, rfl⟩
  | construct hi => simp [hi] at hk
  | drop => cases hk

/-- The appended positions lie below the capacity, so the bytes from `BS_LEN` on are unchanged. -/
theorem Appends.byte_beyond {s t : State} {bits : List Bool} (h : Appends s t bits) {a : Nat} (ha : s.bsLen ≤ a) :
    t.buf.read a = s.buf.read a := by
  have hle := h.inv.count_le
  rw [h.capacity, h.count, State.capacity] at hle
  exact h.byte a fun p _ hp => by omega

theorem kind_of_writerOp : ∀ o ∈ [Op.wr1, .wr2, .wr4, .wr8, .segencode, .segpayload], o.kind = .append := by decide

/-- Settles O53: a completing stream writer appends, and the fault entry keeps `BUF`. -/
theorem streamWritersFrame : Obligations.StreamWritersFrame := by
  intro i s t hi hinv h
  obtain hc | ⟨c, rfl⟩ := exec_next_cases h
  · obtain ⟨u, bits, happ, rfl⟩ := hc.exists_appends (kind_of_writerOp _ hi) hinv
    have hcount : (u.setRcode .ok).count = s.count + bits.length := happ.count
    refine ⟨?_, fun a ha => happ.byte a (hcount ▸ ha), fun a ha => happ.byte_beyond ha, ?_⟩
    · rw [happ.frame]
      rfl
    · rw [happ.frame]
      exact ⟨fun _ => rfl, fun _ => rfl⟩
  · exact ⟨rfl, fun _ _ => rfl, fun _ _ => rfl, fun _ => rfl, fun _ => rfl⟩

/-! ## The writes of `WRBITS` -/

theorem widest_pos (r : Nat) : 0 < widest r := by
  unfold widest
  split_ifs <;> omega

theorem widest_mono {r r' : Nat} (h : r ≤ r') : widest r ≤ widest r' := by
  unfold widest
  split_ifs <;> omega

theorem chunksFrom_succ (x k : Nat) {r : Nat} (h : r ≠ 0) :
    chunksFrom x (k + 1) r = (widest r, chunkValue x r (widest r)) :: chunksFrom x k (r - widest r) := if_neg h

/-- Induction along the loop of `WRBITS`: no bits left, or one write and the bits after it. -/
theorem chunksFrom_induction {x : Nat} {P : Nat → List (Nat × Byte) → Prop} (zero : P 0 [])
    (more : ∀ r cs, r ≠ 0 → P (r - widest r) cs → P r ((widest r, chunkValue x r (widest r)) :: cs)) {k r : Nat}
    (h : r ≤ k) : P r (chunksFrom x k r) := by
  induction k generalizing r with
  | zero =>
    obtain rfl : r = 0 := by omega
    exact zero
  | succ k ih =>
    by_cases h0 : r = 0
    · subst h0
      exact zero
    · rw [chunksFrom_succ x k h0]
      have hpos := widest_pos r
      exact more r _ h0 (ih (by omega))

theorem chunks_width_mem (w x : Nat) : ∀ c ∈ chunks w x, c.1 ∈ [8, 4, 2, 1] := by
  refine chunksFrom_induction (P := fun _ cs => ∀ c ∈ cs, c.1 ∈ [8, 4, 2, 1]) nofun (fun r cs _ ih => ?_) (le_refl w)
  exact List.forall_mem_cons.2 ⟨widest_mem r, ih⟩

/-- Each width is the widest that fits what is left, and less is left after each write. -/
theorem chunks_descending (w x : Nat) : ((chunks w x).map Prod.fst).Pairwise (· ≥ ·) := by
  refine (chunksFrom_induction (P := fun r cs => (∀ q ∈ cs.map Prod.fst, q ≤ widest r) ∧
    (cs.map Prod.fst).Pairwise (· ≥ ·)) ⟨nofun, .nil⟩ (fun r cs _ ⟨hle, hdesc⟩ => ?_) (le_refl w)).2
  have hbound : ∀ q ∈ cs.map Prod.fst, q ≤ widest r := fun q hq =>
    (hle q hq).trans (widest_mono (Nat.sub_le r (widest r)))
  exact ⟨List.forall_mem_cons.2 ⟨le_refl _, hbound⟩, List.pairwise_cons.2 ⟨hbound, hdesc⟩⟩

/-- `(w div 8) + popcount(w mod 8)`, the number of writes of `WRBITS` (40_bitstream.md R158). -/
def writeCount (w : Nat) : Nat := w / 8 + (w % 8 / 4 + w % 4 / 2 + w % 2)

theorem writeCount_widest {r : Nat} (h : r ≠ 0) : writeCount (r - widest r) + 1 = writeCount r := by
  unfold writeCount widest
  split_ifs <;> omega

theorem chunks_length (w x : Nat) : (chunks w x).length = writeCount w := by
  refine chunksFrom_induction (P := fun r cs => cs.length = writeCount r) rfl (fun r cs h0 ih => ?_) (le_refl w)
  rw [List.length_cons, ih, writeCount_widest h0]

/-- One more write lowers the count by one at most. -/
theorem writeCount_add_le {q : Nat} (hq : q ∈ [8, 4, 2, 1]) (w : Nat) : writeCount (q + w) ≤ writeCount w + 1 := by
  simp only [List.mem_cons, List.not_mem_nil, or_false] at hq
  unfold writeCount
  obtain rfl | rfl | rfl | rfl := hq <;> omega

/-- No list of widths of writes with the same sum is shorter. -/
theorem writeCount_sum_le (ws : List Nat) (h : ∀ q ∈ ws, q ∈ [8, 4, 2, 1]) : writeCount ws.sum ≤ ws.length := by
  induction ws with
  | nil => exact le_refl 0
  | cons q ws ih =>
    obtain ⟨hq, hws⟩ := List.forall_mem_cons.1 h
    rw [List.sum_cons, List.length_cons]
    exact (writeCount_add_le hq ws.sum).trans (Nat.succ_le_succ (ih hws))

/-- Settles O30: each clause is a fact about the loop `chunksFrom`, and the least number is that of `writeCount`. -/
theorem wrbitsDecomposition : Obligations.WrbitsDecomposition := by
  intro w x
  refine ⟨chunks_width_mem w x, chunks_descending w x, chunks_widths w x, chunks_length w x, fun ws hws hsum => ?_,
    chunksFrom_bits x (le_refl w)⟩
  rw [chunks_length, ← hsum]
  exact writeCount_sum_le ws hws

end Sys2Proof.Machine

/-! ## The lookup by the ROM's table -/

namespace Sys2Proof.Machine

theorem positionFrom_eq (c : Byte) (i : Nat) (bs : List Byte) :
    positionFrom c i bs = (bs.idxOf? c).map (i + ·) := by
  induction bs generalizing i with
  | nil => rfl
  | cons b bs ih =>
    rw [positionFrom, List.idxOf?_cons]
    by_cases hb : b = c
    · simp [hb]
    · simp [hb, ih, Nat.add_assoc, Nat.add_comm 1, Function.comp_def]

theorem lut_eq_idxOf? (c : Byte) : lut c = alphabet.idxOf? c := by simp [lut, positionFrom_eq]

/-- A byte that is not in the ROM has no code (41_lut_digits.md R180). -/
theorem lut_eq_none_iff {c : Byte} : lut c = none ↔ c ∉ alphabet := by
  rw [lut_eq_idxOf?, List.idxOf?_eq_none_iff]

theorem alphabet_nodup : alphabet.Nodup := by decide

/-- The code of a character is its position, the only one it has (41_lut_digits.md R180, R183). -/
theorem lut_eq_some_iff {c : Byte} {k : Nat} : lut c = some k ↔ alphabet[k]? = some c := by
  rw [lut_eq_idxOf?, List.idxOf?_eq_some_iff, List.getElem?_eq_some_iff]
  refine exists_congr fun hk => and_iff_left_of_imp ?_
  rintro rfl j hj heq
  exact hj.ne (alphabet_nodup.getElem_inj_iff.1 heq)

/-- The ROM holds the characters of the document's string as ASCII bytes (41_lut_digits.md R180). -/
theorem alphabet_toNat :
    alphabet.map BitVec.toNat = "0123456789ABCDEFGHIJKLMNOPQRSTUVWXYZ $%*+-./:".toList.map Char.toNat := by decide

theorem exec_anlookup_found {c : Byte} {k : Nat} (h : lut c = some k) (s : State) :
    exec (.anlookup c) s = .next ((s.setRes (zext64 k)).setRcode .ok) := by
  rw [exec_eq, effectOf, anlookup, h]
  rfl

theorem exec_anlookup_notFound {c : Byte} (h : lut c = none) (s : State) :
    exec (.anlookup c) s = .next ((s.setRes (BitVec.allOnes 64)).setRcode .notFound) := by
  rw [exec_eq, effectOf, anlookup, h]
  rfl

/-- Settles O31: the document's string is the ROM, where `lut` finds the position of a byte or that it is absent. -/
theorem anlookupFollowsAlphabet : Obligations.AnlookupFollowsAlphabet := by
  rintro c s abc - rfl
  rw [← alphabet_toNat]
  refine ⟨fun k hk => ?_, fun hc => ?_⟩
  · have hlut : lut c = some k := by
      rw [List.getElem?_map] at hk
      obtain ⟨b, hb, hbc⟩ := Option.map_eq_some_iff.1 hk
      exact lut_eq_some_iff.2 (BitVec.eq_of_toNat_eq hbc ▸ hb)
    have hk64 : k < 2 ^ 64 := (lut_lt hlut).trans (by norm_num)
    rw [exec_anlookup_found hlut, zext64_of_lt hk64]
    rfl
  · have hlut : lut c = none := lut_eq_none_iff.2 fun hmem => hc (List.mem_map_of_mem hmem)
    rw [exec_anlookup_notFound hlut]
    rfl

/-- Settles O32: both forms are evaluated at each of the 256 bytes, the test that R182 requires. -/
theorem lookupFormulationsAgree : Obligations.LookupFormulationsAgree := by
  unfold Obligations.LookupFormulationsAgree
  decide

/-- Settles O33: the character of the code `k` is the entry `k` of the ROM. -/
theorem eachCodeHasOneCharacter : Obligations.EachCodeHasOneCharacter := by
  refine ⟨fun k hk => ?_, fun _ _ => lut_lt⟩
  refine ⟨alphabet[k], lut_eq_some_iff.2 (List.getElem?_eq_getElem hk), fun c hc => ?_⟩
  exact ((List.getElem_eq_iff hk).2 (lut_eq_some_iff.1 hc)).symm

/-! ## The digit counter -/

theorem exec_digits (s : State) :
    exec .digits s = .next ((s.setRes (zext64 (digitCount s.operand))).setRcode .ok) := rfl

/-- Settles O34: the digit count meets the bounds of `digitCount_bounds`, and 20 fits 64 bits. -/
theorem digitsCountsDecimalDigits : Obligations.DigitsCountsDecimalDigits := by
  intro s _
  have hle := digitCount_le s.arg.toNat
  obtain ⟨hlt, hge⟩ := digitCount_bounds s.arg
  refine ⟨digitCount s.arg.toNat, digitCount_pos _, hle, hlt, hge, ?_⟩
  rw [exec_digits, State.operand, zext64_of_lt (hle.trans_lt (by norm_num))]
  rfl

/-- A comparator answers whether `n` has more digits than its power of ten has zeros (41_lut_digits.md R192). -/
theorem pow_le_iff_lt_digitCount (n : RegWord) {k : Nat} (hk : 0 < k) :
    10 ^ k ≤ n.toNat ↔ k < digitCount n.toNat := by
  obtain ⟨hlt, hge⟩ := digitCount_bounds n
  refine ⟨fun h => (Nat.pow_lt_pow_iff_right (by norm_num)).1 (h.trans_lt hlt), fun h => ?_⟩
  have hpow : 10 ^ (digitCount n.toNat - 1) ≤ n.toNat := hge.resolve_left (by omega)
  exact (Nat.pow_le_pow_right (by norm_num) (by omega)).trans hpow

/-- Settles O35: comparator `k` answers yes for `k` below the digit count, which is at most 20. -/
theorem digitCountersAgree : Obligations.DigitCountersAgree := by
  intro n
  have hpos := digitCount_pos n.toNat
  have hle := digitCount_le n.toNat
  have hcomparator (k : Nat) : decide (10 ^ (k + 1) ≤ n.toNat) = decide (k < digitCount n.toNat - 1) :=
    decide_eq_decide.2 ((pow_le_iff_lt_digitCount n k.succ_pos).trans (by omega))
  simp only [digitCountComparators, hcomparator, ← List.Ico.zero_bot, List.Ico.filter_lt, List.Ico.length]
  omega

end Sys2Proof.Machine

/-! ## How a command is executed, by its pseudocode -/

namespace Sys2Proof.Machine

theorem exec_of_ok {i : Instr} {s t : State} (h : effectOf i s = .ok t) : exec i s = .next t := by
  rw [exec_eq, h, conclude_ok]

/-- The fault entry of 60_exceptions.md R274, written out. -/
theorem exec_of_fatal {i : Instr} {s : State} {c : FatalCause} (h : effectOf i s = .error (.fatal c)) :
    exec i s = .next { s with fatal := true, fcause := some c, fcmd := encode i } := by
  rw [exec_eq, h, conclude_fatal]
  rfl

/-! ## Constructing a segment -/

namespace Memory

theorem read_store_of_lt (m : Memory) {bs : List Byte} {i : Nat} (h : i < bs.length) :
    (m.store 0 bs).read i = bs[i]? := by
  rw [read_store, if_pos (by omega), Nat.sub_zero]

theorem read_store_of_ge (m : Memory) {bs : List Byte} {i : Nat} (h : bs.length ≤ i) :
    (m.store 0 bs).read i = m.read i := by
  rw [read_store, if_neg (by omega)]

/-- Bytes that are read one by one are what a load gives. -/
theorem load_of_read {m : Memory} {bs : List Byte} {a : Nat} (h : ∀ i < bs.length, m.read (a + i) = bs[i]?) :
    m.load a bs.length = some bs := by
  induction bs generalizing a with
  | nil => rfl
  | cons b bs ih =>
    have hhead : m.read a = some b := h 0 (Nat.succ_pos _)
    have htail : m.load (a + 1) bs.length = some bs := ih fun i hi => by
      rw [Nat.add_assoc, Nat.add_comm 1 i, h (i + 1) (Nat.succ_lt_succ hi), List.getElem?_cons_succ]
    simp [load, hhead, htail]

end Memory

theorem text_of_read {s : State} {n : Nat} {text : List Byte} (hlen : text.length = n)
    (h : ∀ i < n, s.txt.read i = text[i]?) : s.text n = .ok text := by
  subst hlen
  have hload : s.txt.load 0 text.length = some text := Memory.load_of_read (by simpa using h)
  simp [State.text, hload]

/-- A construction that completes, as the state it leaves: the elements are stored from `SEG[0]` on, and no other byte
of `SEG` is written (42_segment.md R210). -/
theorem exec_construct {i : Instr} {s : State} {md : Mode} {es : List Byte} {v : RegWord} {n : Nat}
    (h : effectOf i s = .ok (((s.setSegment md es).setRes v).setRcode .ok)) (hlen : es.length = n) : ∃ m,
    exec i s = .next
      { s with segMode := some md, segLen := n, seg := m, segCount := s.segCount + 1, res := v, rcode := .ok } ∧
    (∀ j < n, m.read j = es[j]?) ∧ ∀ j, n ≤ j → m.read j = s.seg.read j := by
  subst hlen
  exact ⟨s.seg.store 0 es, exec_of_ok h, fun _ => Memory.read_store_of_lt s.seg, fun _ => Memory.read_store_of_ge s.seg⟩

theorem digitsOf_getElem? {n i : Nat} (h : i < digitCount n) :
    (digitsOf n)[i]? = some (BitVec.ofNat 8 (digit n i)) := by
  rw [digitsOf, List.getElem?_map, List.getElem?_range h, Option.map_some]

/-- Settles O36: the elements are `digitsOf ARG`, and their number meets the bounds of `digitCount_bounds`. -/
theorem segnumStoresDigits : Obligations.SegnumStoresDigits := by
  intro s _
  have hle := digitCount_le s.arg.toNat
  obtain ⟨hlt, hge⟩ := digitCount_bounds s.arg
  obtain ⟨m, hexec, hdigits, hother⟩ := exec_construct (i := .segnum) (s := s) rfl (digitsOf_length s.arg.toNat)
  rw [State.operand, zext64_of_lt (hle.trans_lt (by norm_num))] at hexec
  refine ⟨digitCount s.arg.toNat, m, digitCount_pos _, hle, hlt, hge, hexec, fun j hj => ?_, hother⟩
  exact (hdigits j hj).trans (digitsOf_getElem? hj)

theorem segalnum_limit {p : Params} {s : State} (h : p.txtMax < s.operand ∨ p.segMax < s.operand) :
    segalnum p s = .error (.fatal .resourceLimit) := by
  simp only [segalnum]
  split_ifs with htxt hseg
  · rfl
  · rfl
  · exact absurd h (not_or.2 ⟨htxt, hseg⟩)

theorem segalnum_codes {p : Params} {s : State} {cs : List Byte} (htxt : s.operand ≤ p.txtMax)
    (hseg : s.operand ≤ p.segMax) (h : scanText s.txt s.operand 0 = .ok (.codes cs)) :
    segalnum p s = .ok (((s.setSegment .alnum cs).setRes (zext64 s.operand)).setRcode .ok) := by
  simp only [segalnum, if_neg (Nat.not_lt.2 htxt), if_neg (Nat.not_lt.2 hseg), h]

theorem segalnum_invalid {p : Params} {s : State} {j : Nat} (htxt : s.operand ≤ p.txtMax)
    (hseg : s.operand ≤ p.segMax) (h : scanText s.txt s.operand 0 = .ok (.invalidAt j)) :
    segalnum p s = .ok ((s.dropSegment.setRes (zext64 j)).setRcode .invalidChar) := by
  simp only [segalnum, if_neg (Nat.not_lt.2 htxt), if_neg (Nat.not_lt.2 hseg), h]

/-- Settles O37: past the size checks the scan finds the codes of the whole text, or the first invalid character. -/
theorem segalnumAllOrNothing : Obligations.SegalnumAllOrNothing := by
  rintro s _ - rfl
  refine ⟨fun h => exec_of_fatal (segalnum_limit h), fun code htxt hseg hvalid => ?_,
    fun j b htxt hseg hj hvalid hread hlut => ?_⟩
  · have hscan := scanText_valid (m := s.txt) (i := 0) code (by simpa using hvalid)
    obtain ⟨m, hexec, hcodes, hother⟩ := exec_construct (i := .segalnum) (n := s.operand)
      (segalnum_codes htxt hseg hscan) (by simp [State.operand])
    rw [State.operand, zext64_of_lt s.arg.isLt] at hexec
    refine ⟨m, hexec, fun i hi => ?_, hother⟩
    rw [hcodes i hi, List.getElem?_map, List.getElem?_range hi]
    rfl
  · have hscan := (scanText_first (k := s.arg.toNat) (Nat.zero_le j) (by omega) fun i _ => hvalid i).1 b hread hlut
    have hexec := exec_of_ok (i := .segalnum) (segalnum_invalid htxt hseg hscan)
    rwa [zext64_of_lt (hj.trans s.arg.isLt)] at hexec

theorem segtext_long_text {p : Params} {s : State} (h : p.txtMax < s.operand) :
    segtext p s = .error (.fatal .resourceLimit) := if_pos h

theorem segtext_long_out {p : Params} {s : State} {text : List Byte} (htxt : s.operand ≤ p.txtMax)
    (h : s.text s.operand = .ok text) (hseg : p.segMax < (repair p text).length) :
    segtext p s = .error (.fatal .resourceLimit) := by
  simp only [segtext, if_neg (Nat.not_lt.2 htxt), h, Effect.ok_bind, if_pos hseg]

theorem segtext_fits {p : Params} {s : State} {text : List Byte} (htxt : s.operand ≤ p.txtMax)
    (h : s.text s.operand = .ok text) (hseg : (repair p text).length ≤ p.segMax) :
    segtext p s =
      .ok (((s.setSegment .byte (repair p text)).setRes (zext64 (repair p text).length)).setRcode .ok) := by
  simp only [segtext, if_neg (Nat.not_lt.2 htxt), h, Effect.ok_bind, if_neg (Nat.not_lt.2 hseg)]

/-- Settles O38. -/
theorem segtextStoresRepairedText : Obligations.SegtextStoresRepairedText := by
  rintro s _ - rfl
  refine ⟨fun h => exec_of_fatal (segtext_long_text h), ?_⟩
  rintro text _ htxt hlen hread rfl
  have htext : s.text s.operand = .ok text := text_of_read hlen hread
  refine ⟨fun h => exec_of_fatal (segtext_long_out htxt htext h), fun h => ?_⟩
  obtain ⟨m, hexec, hstored, hother⟩ := exec_construct (i := .segtext) (segtext_fits htxt htext h) rfl
  exact ⟨m, _, hexec, zext64_toNat, hstored, hother⟩

theorem kind_of_constructor : ∀ i ∈ [Instr.segnum, .segalnum, .segtext], i.op.kind = .construct := by decide

/-- Settles O42: a construction stores its elements below the new `SEG_LEN`; a dropped segment and the fault entry write
no byte of `SEG`. -/
theorem constructorsFrame : Obligations.ConstructorsFrame := by
  intro i s t hi h
  have hkind := kind_of_constructor i hi
  obtain hc | ⟨c, rfl⟩ := exec_next_cases h
  · cases hc with
    | report hr => simp [hr] at hkind
    | create hr => simp [hr] at hkind
    | append hr => simp [hr] at hkind
    | construct =>
      exact ⟨rfl, rfl, rfl, rfl, fun _ => rfl, fun _ => rfl, fun _ => Memory.read_store_of_ge s.seg, rfl, rfl, rfl⟩
    | drop => exact ⟨rfl, rfl, rfl, rfl, fun _ => rfl, fun _ => rfl, fun _ _ => rfl, rfl, rfl, rfl⟩
  · exact ⟨rfl, rfl, rfl, rfl, fun _ => rfl, fun _ => rfl, fun _ _ => rfl, rfl, rfl, rfl⟩

end Sys2Proof.Machine

/-! ## Repairing a text -/

namespace Sys2Proof.Machine

theorem repairLoop_nil (p : Params) (rounds : Nat) (prevBad : Bool) : repairLoop p rounds prevBad [] = [] := by
  cases rounds <;> rfl

/-- A round at a well-formed sequence copies it (42_segment.md R222). -/
theorem repairLoop_wellFormed {t : List Byte} (h : 0 < wellFormedLength t) (p : Params) (rounds : Nat)
    (prevBad : Bool) :
    repairLoop p (rounds + 1) prevBad t =
      t.take (wellFormedLength t) ++ repairLoop p rounds false (t.drop (wellFormedLength t)) := by
  cases t with
  | nil => exact absurd h (by decide)
  | cons b t => exact if_pos h

/-- A round at an ill-formed unit puts out the placeholder, but for a run that already has its one
(42_segment.md R222). -/
theorem repairLoop_illFormed {b : Byte} {t : List Byte} (h : wellFormedLength (b :: t) = 0) (p : Params) (rounds : Nat)
    (prevBad : Bool) :
    repairLoop p (rounds + 1) prevBad (b :: t) =
      (if p.runPolicy = .perByte ∨ prevBad = false then p.placeholder else []) ++ repairLoop p rounds true t := by
  rw [repairLoop]
  simp only [h, Nat.lt_irrefl, if_false]
  split_ifs <;> rfl

/-- A round consumes a byte, so any numbers of rounds that cover the text give the same bytes. -/
theorem repairLoop_rounds (p : Params) {k k' : Nat} {t : List Byte} (prevBad : Bool) (h : t.length ≤ k)
    (h' : t.length ≤ k') : repairLoop p k prevBad t = repairLoop p k' prevBad t := by
  induction k generalizing k' t prevBad with
  | zero => rw [List.length_eq_zero_iff.1 (Nat.le_zero.1 h), repairLoop_nil, repairLoop_nil]
  | succ k ih =>
    cases t with
    | nil => rw [repairLoop_nil, repairLoop_nil]
    | cons b t =>
      obtain ⟨k', rfl⟩ : ∃ r, k' = r + 1 := Nat.exists_eq_add_one.2 (by rw [List.length_cons] at h'; omega)
      rw [List.length_cons, Nat.succ_le_succ_iff] at h h'
      rcases Nat.eq_zero_or_pos (wellFormedLength (b :: t)) with hill | hwf
      · rw [repairLoop_illFormed hill, repairLoop_illFormed hill, ih true h h']
      · have hdrop : ((b :: t).drop (wellFormedLength (b :: t))).length ≤ t.length := by
          rw [List.length_drop, List.length_cons]
          omega
        rw [repairLoop_wellFormed hwf, repairLoop_wellFormed hwf, ih false (hdrop.trans h) (hdrop.trans h')]

theorem repairLoop_eq_repair (p : Params) {k : Nat} {t : List Byte} (h : t.length ≤ k) :
    repairLoop p k false t = repair p t := repairLoop_rounds p false h le_rfl

/-- Where no run of ill-formed units goes on, the bytes do not depend on the unit before. -/
theorem repairLoop_prevBad {p : Params} {t : List Byte} (h : p.runPolicy = .perByte ∨ t = [] ∨ 0 < wellFormedLength t) :
    repairLoop p t.length true t = repair p t := by
  unfold repair
  cases t with
  | nil => rfl
  | cons b t =>
    rw [List.length_cons]
    rcases Nat.eq_zero_or_pos (wellFormedLength (b :: t)) with hill | hwf
    · have hbyte : p.runPolicy = .perByte := h.resolve_right (by simp [hill])
      rw [repairLoop_illFormed hill, repairLoop_illFormed hill, if_pos (.inl hbyte), if_pos (.inl hbyte)]
    · rw [repairLoop_wellFormed hwf, repairLoop_wellFormed hwf]

theorem repair_wellFormed {t : List Byte} (h : 0 < wellFormedLength t) (p : Params) :
    repair p t = t.take (wellFormedLength t) ++ repair p (t.drop (wellFormedLength t)) := by
  rw [← repairLoop_eq_repair p (Nat.le_succ t.length), repairLoop_wellFormed h, repairLoop_eq_repair p (by simp)]

theorem repair_illFormed {b : Byte} {t : List Byte} (h : wellFormedLength (b :: t) = 0) (p : Params) :
    repair p (b :: t) = p.placeholder ++ repairLoop p t.length true t := by
  rw [repair, List.length_cons, repairLoop_illFormed h, if_pos (.inr rfl)]

/-- Settles O40: after an ill-formed unit the loop goes on as from the start, but at a further unit of a run under
`PER_RUN`, which it drops where the start puts out the placeholder. -/
theorem repairReplacesIllFormedUnits : Obligations.RepairReplacesIllFormedUnits := by
  refine fun p => ⟨rfl, fun t k hk hpos => ?_, fun b t hill => ⟨fun hbyte => ?_, fun hrun => ⟨fun hend => ?_, ?_⟩⟩⟩
  · subst hk
    exact repair_wellFormed hpos p
  · rw [repair_illFormed hill, repairLoop_prevBad (.inl hbyte)]
  · rw [repair_illFormed hill, repairLoop_prevBad (.inr hend)]
  · intro hne hill'
    obtain ⟨c, t, rfl⟩ := List.exists_cons_of_ne_nil hne
    rw [repair_illFormed hill, repair_illFormed hill', List.length_cons, repairLoop_illFormed hill']
    simp [hrun]

end Sys2Proof.Machine

/-! ## Well-formed sequences and the UTF-8 encoding -/

namespace Sys2Proof.Machine

/-- The values lie in the ranges of a row of the table, one by one (42_segment.md R221). -/
abbrev InRow (row : List (Nat × Nat)) (vs : List Nat) : Prop := List.Forall₂ (fun r v => r.1 ≤ v ∧ v ≤ r.2) row vs

theorem startsWithRow_iff {row : List (Nat × Nat)} {t : List Byte} :
    startsWithRow row t = true ↔ InRow row ((t.take row.length).map BitVec.toNat) := by
  induction row generalizing t with
  | nil => simp [startsWithRow]
  | cons r row ih =>
    cases t with
    | nil => simp [startsWithRow]
    | cons b t => simp [startsWithRow, ih]

/-- The first byte of a row's ranges tells the length of the row. -/
theorem utf8Table_lead : ∀ row ∈ utf8Table, ∃ lo hi rest, row = (lo, hi) :: rest ∧
    (hi ≤ 0x7F ∧ row.length = 1 ∨ 0xC2 ≤ lo ∧ hi ≤ 0xDF ∧ row.length = 2 ∨
      0xE0 ≤ lo ∧ hi ≤ 0xEF ∧ row.length = 3 ∨ 0xF0 ≤ lo ∧ hi ≤ 0xF4 ∧ row.length = 4) := by
  simp [utf8Table]

/-- A text that starts with a row has a first byte, which tells the length of the row. -/
theorem startsWithRow_lead {row : List (Nat × Nat)} (hrow : row ∈ utf8Table) {t : List Byte}
    (h : startsWithRow row t = true) : ∃ b rest, t = b :: rest ∧
    (b.toNat ≤ 0x7F ∧ row.length = 1 ∨ 0xC2 ≤ b.toNat ∧ b.toNat ≤ 0xDF ∧ row.length = 2 ∨
      0xE0 ≤ b.toNat ∧ b.toNat ≤ 0xEF ∧ row.length = 3 ∨ 0xF0 ≤ b.toNat ∧ b.toNat ≤ 0xF4 ∧ row.length = 4) := by
  obtain ⟨lo, hi, ranges, rfl, hlead⟩ := utf8Table_lead row hrow
  cases t with
  | nil => simp [startsWithRow] at h
  | cons b t =>
    have hb : lo ≤ b.toNat ∧ b.toNat ≤ hi := by
      simp only [startsWithRow, Bool.and_eq_true, decide_eq_true_eq] at h
      exact h.1
    exact ⟨b, t, rfl, by omega⟩

/-- A text starts with rows of one length only. -/
theorem wellFormedLength_of_row {row : List (Nat × Nat)} (hrow : row ∈ utf8Table) {t : List Byte}
    (h : startsWithRow row t = true) : wellFormedLength t = row.length := by
  obtain ⟨row', hrow', h', hlen⟩ | ⟨hnone, -⟩ := wellFormedLength_cases t
  · obtain ⟨b, rest, rfl, hb⟩ := startsWithRow_lead hrow h
    obtain ⟨b', rest', heq, hb'⟩ := startsWithRow_lead hrow' h'
    cases heq
    omega
  · simp [hnone row hrow] at h

/-- A text with a well-formed sequence starts with a row of that length. -/
theorem exists_row_of_wellFormed {t : List Byte} (h : 0 < wellFormedLength t) :
    ∃ row ∈ utf8Table, startsWithRow row t = true ∧ wellFormedLength t = row.length := by
  obtain hrow | ⟨-, hzero⟩ := wellFormedLength_cases t
  · exact hrow
  · omega

/-- The bytes of the UTF-8 encoding of a code point, as naturals. -/
def utf8Values (n : Nat) : List Nat :=
  if n ≤ 0x7F then [n]
  else if n ≤ 0x7FF then [n / 64 + 0xC0, n % 64 + 0x80]
  else if n ≤ 0xFFFF then [n / 4096 + 0xE0, n / 64 % 64 + 0x80, n % 64 + 0x80]
  else [n / 262144 + 0xF0, n / 4096 % 64 + 0x80, n / 64 % 64 + 0x80, n % 64 + 0x80]

/-- The bytes of Lean's encoder. -/
abbrev utf8Bytes (c : Char) : List Byte := (String.utf8EncodeChar c).map fun u => u.toBitVec

theorem utf8Bytes_toNat (c : Char) : (utf8Bytes c).map BitVec.toNat = utf8Values c.toNat := by
  have hmax : c.toNat < 0x110000 := by
    have hvalid : c.toNat.isValidChar := c.valid
    unfold Nat.isValidChar at hvalid
    omega
  simp only [utf8Bytes, String.utf8EncodeChar, utf8Values, Char.toNat_val]
  split_ifs <;> simp <;> omega

theorem utf8Values_inRow {n : Nat} (h : n.isValidChar) : ∃ row ∈ utf8Table, InRow row (utf8Values n) := by
  unfold Nat.isValidChar at h
  unfold utf8Values
  split_ifs <;> simp [utf8Table, InRow] <;> omega

theorem isValidChar_of_lt {n : Nat} (h : n < 0xD800 ∨ 0xDFFF < n ∧ n < 0x110000) : n.isValidChar := h

/-- Values in the ranges of a row are the encoding of a scalar value: the rows leave out the surrogates and what is
overlong. -/
theorem exists_utf8Values_of_inRow {vs : List Nat} (h : ∃ row ∈ utf8Table, InRow row vs) :
    ∃ n : Nat, n.isValidChar ∧ utf8Values n = vs := by
  match vs with
  | [] => simp [utf8Table, InRow] at h
  | [a] =>
    simp [utf8Table, InRow] at h
    exact ⟨a, isValidChar_of_lt (by omega), if_pos h⟩
  | [a, b] =>
    simp [utf8Table, InRow] at h
    refine ⟨(a - 0xC0) * 64 + (b - 0x80), isValidChar_of_lt (by omega), ?_⟩
    rw [utf8Values, if_neg (by omega), if_pos (by omega)]
    simp only [List.cons.injEq, and_true]
    omega
  | [a, b, c] =>
    simp [utf8Table, InRow] at h
    refine ⟨(a - 0xE0) * 4096 + (b - 0x80) * 64 + (c - 0x80), isValidChar_of_lt (by omega), ?_⟩
    rw [utf8Values, if_neg (by omega), if_neg (by omega), if_pos (by omega)]
    simp only [List.cons.injEq, and_true]
    omega
  | [a, b, c, d] =>
    simp [utf8Table, InRow] at h
    refine ⟨(a - 0xF0) * 262144 + (b - 0x80) * 4096 + (c - 0x80) * 64 + (d - 0x80), isValidChar_of_lt (by omega), ?_⟩
    rw [utf8Values, if_neg (by omega), if_neg (by omega), if_neg (by omega)]
    simp only [List.cons.injEq, and_true]
    omega
  | _ :: _ :: _ :: _ :: _ :: _ => simp [utf8Table, InRow] at h

/-- Settles O41: the encodings are exactly the byte sequences in the ranges of a row, and rows of different lengths
exclude each other. -/
theorem scalarEncodingsAreWellFormed : Obligations.ScalarEncodingsAreWellFormed := by
  refine ⟨fun c rest => ?_, fun t hwf => ?_, fun b t hb => ?_, fun t => ?_⟩
  · obtain ⟨row, hrow, hin⟩ := utf8Values_inRow c.valid
    have hlen : row.length = (utf8Bytes c).length := by
      rw [hin.length_eq, ← List.length_map BitVec.toNat, utf8Bytes_toNat]; rfl
    have hstart : startsWithRow row (utf8Bytes c ++ rest) = true := by
      rw [startsWithRow_iff, hlen, List.take_left, utf8Bytes_toNat]
      exact hin
    rw [wellFormedLength_of_row hrow hstart, hlen, List.length_map, String.length_utf8EncodeChar]
  · obtain ⟨row, hrow, hstart, hlen⟩ := exists_row_of_wellFormed hwf
    obtain ⟨n, hvalid, hvalues⟩ := exists_utf8Values_of_inRow ⟨row, hrow, startsWithRow_iff.1 hstart⟩
    refine ⟨Char.ofNatAux n hvalid, List.map_injective_iff.2 (fun _ _ => BitVec.eq_of_toNat_eq) ?_⟩
    rw [hlen]
    exact hvalues.symm.trans (utf8Bytes_toNat (Char.ofNatAux n hvalid)).symm
  · by_contra hne
    obtain ⟨row, hrow, hstart, -⟩ := exists_row_of_wellFormed (Nat.pos_of_ne_zero hne)
    obtain ⟨b', rest, heq, hlead⟩ := startsWithRow_lead hrow hstart
    cases heq
    omega
  · rcases Nat.eq_zero_or_pos (wellFormedLength t) with hzero | hwf
    · omega
    · obtain ⟨row, hrow, hstart, hlen⟩ := exists_row_of_wellFormed hwf
      obtain ⟨b, rest, -, hlead⟩ := startsWithRow_lead hrow hstart
      have hle := (startsWithRow_iff.1 hstart).length_eq
      rw [List.length_map, List.length_take] at hle
      omega

end Sys2Proof.Machine

/-! ## Sizing a segment -/

namespace Sys2Proof.Machine

theorem bandOf_eq_none {v : Nat} (h : v < 1 ∨ 40 < v) : bandOf v = none := by
  rw [bandOf, if_neg (by omega), if_neg (by omega), if_neg (by omega)]

theorem bandOf_low {v : Nat} (h : 1 ≤ v) (h' : v ≤ 9) : bandOf v = some .low := if_pos ⟨h, h'⟩

theorem bandOf_middle {v : Nat} (h : 10 ≤ v) (h' : v ≤ 26) : bandOf v = some .middle := by
  rw [bandOf, if_neg (by omega), if_pos ⟨h, h'⟩]

theorem bandOf_high {v : Nat} (h : 27 ≤ v) (h' : v ≤ 40) : bandOf v = some .high := by
  rw [bandOf, if_neg (by omega), if_neg (by omega), if_pos ⟨h, h'⟩]

/-- The bands cover the versions 1 to 40 (42_segment.md R228). -/
theorem exists_bandOf {v : Nat} (h : 1 ≤ v) (h' : v ≤ 40) : ∃ b, bandOf v = some b := by
  rcases Nat.lt_or_ge v 10 with hlow | hlow
  · exact ⟨_, bandOf_low h (by omega)⟩
  · rcases Nat.lt_or_ge v 27 with hmiddle | hhigh
    · exact ⟨_, bandOf_middle hlow (by omega)⟩
    · exact ⟨_, bandOf_high hhigh h'⟩

theorem segdatabits_no_segment {s : State} (h : s.segMode = none) :
    segdatabits s = .error (.fatal .unrecognizedMode) := by rw [segdatabits, h]

theorem segdatabits_segment {s : State} {m : Mode} (h : s.segMode = some m) :
    segdatabits s = .ok ((s.setRes (zext64 (dataBits m s.segLen))).setRcode .ok) := by rw [segdatabits, h]

theorem dataBits_triplets (q : Nat) : dataBits .numeric (3 * q) = 10 * q := by
  rw [dataBits, if_neg (by omega), if_neg (by omega)]
  omega

theorem dataBits_triplets_one (q : Nat) : dataBits .numeric (3 * q + 1) = 10 * q + 4 := by
  rw [dataBits, if_pos (by omega)]
  omega

theorem dataBits_triplets_two (q : Nat) : dataBits .numeric (3 * q + 2) = 10 * q + 7 := by
  rw [dataBits, if_neg (by omega), if_pos (by omega)]
  omega

theorem dataBits_pairs (q : Nat) : dataBits .alnum (2 * q) = 11 * q := by
  rw [dataBits]
  omega

theorem dataBits_pairs_one (q : Nat) : dataBits .alnum (2 * q + 1) = 11 * q + 6 := by
  rw [dataBits]
  omega

/-- Settles O43. -/
theorem segdatabitsReportsPayloadSize : Obligations.SegdatabitsReportsPayloadSize := by
  intro s _
  refine ⟨fun h => exec_of_fatal (segdatabits_no_segment h), fun h => ?_⟩
  obtain ⟨m, hm⟩ := Option.ne_none_iff_exists'.1 h
  refine ⟨s.segLen, dataBits m s.segLen, zext64 (dataBits m s.segLen), rfl, fun hnum => ?_, fun halnum => ?_,
    fun hbyte => ?_, zext64_toNat, exec_of_ok (segdatabits_segment hm)⟩
  · cases hm.symm.trans hnum
    exact ⟨fun q hq => hq ▸ dataBits_triplets q, fun q hq => hq ▸ dataBits_triplets_one q,
      fun q hq => hq ▸ dataBits_triplets_two q⟩
  · cases hm.symm.trans halnum
    exact ⟨fun q hq => hq ▸ dataBits_pairs q, fun q hq => hq ▸ dataBits_pairs_one q⟩
  · cases hm.symm.trans hbyte
    rfl

theorem seglenbits_no_segment {s : State} (h : s.segMode = none) (v : Byte) :
    seglenbits v s = .error (.fatal .unrecognizedMode) := by rw [seglenbits, h]

theorem seglenbits_invalid_version {s : State} {m : Mode} {v : Byte} (h : s.segMode = some m)
    (hv : bandOf v.toNat = none) : seglenbits v s = .error (.fatal .invalidVersion) := by
  simp only [seglenbits, h, hv]

theorem exec_seglenbits {s : State} {m : Mode} {v : Byte} {b : Band} (h : s.segMode = some m)
    (hv : bandOf v.toNat = some b) :
    exec (.seglenbits v) s = .next ((s.setRes (zext64 (lengthBits m b))).setRcode .ok) :=
  exec_of_ok (by simp only [effectOf, seglenbits, h, hv])

/-- Settles O44: past the checks `RES` is the entry of the table for the mode and the band of the version. -/
theorem seglenbitsReportsFieldWidth : Obligations.SeglenbitsReportsFieldWidth := by
  intro s v _
  refine ⟨fun h => exec_of_fatal (seglenbits_no_segment h v), fun m hm => ⟨fun hv => ?_, ?_, ?_, ?_⟩⟩
  · exact exec_of_fatal (seglenbits_invalid_version hm (bandOf_eq_none hv))
  · intro hlo hhi
    rw [exec_seglenbits hm (bandOf_low hlo hhi)]
    cases m <;> rfl
  · intro hlo hhi
    rw [exec_seglenbits hm (bandOf_middle hlo hhi)]
    cases m <;> rfl
  · intro hlo hhi
    rw [exec_seglenbits hm (bandOf_high hlo hhi)]
    cases m <;> rfl

/-! ## Encoding a segment -/

theorem segencode_no_segment {s : State} (h : s.segMode = none) (v : Byte) :
    segencode v s = .error (.fatal .unrecognizedMode) := by rw [segencode, h]

theorem segencode_invalid_version {s : State} {m : Mode} {v : Byte} (h : s.segMode = some m)
    (hv : bandOf v.toNat = none) : segencode v s = .error (.fatal .invalidVersion) := by
  simp only [segencode, h, hv]

theorem segencode_full {s : State} {m : Mode} {v : Byte} {b : Band} (h : s.segMode = some m)
    (hv : bandOf v.toNat = some b)
    (hfull : s.capacity < s.count + (4 + lengthBits m b + dataBits m s.segLen)) :
    segencode v s = .error (.fatal .capacityExceeded) := by
  simp only [segencode, h, hv, if_pos hfull]

theorem segpayload_no_segment {s : State} (h : s.segMode = none) :
    segpayload s = .error (.fatal .unrecognizedMode) := by rw [segpayload, h]

theorem segpayload_full {s : State} {m : Mode} (h : s.segMode = some m)
    (hfull : s.capacity < s.count + dataBits m s.segLen) : segpayload s = .error (.fatal .capacityExceeded) := by
  simp only [segpayload, h, if_pos hfull]

/-- A command that comes to a sequence of fields completes where they fit over written bytes, and appends their bits. -/
theorem exec_writeFields {i : Instr} {s : State} {fs : List (Nat × Nat)}
    (h : effectOf i s = (writeFields fs s >>= fun u => .ok (u.setRcode .ok))) (hinv : s.CursorInv)
    (hroom : s.count + (fieldsBits fs).length ≤ s.capacity) (hwritten : s.touchesWritten (fieldsBits fs).length) :
    ∃ u, Appends s u (fieldsBits fs) ∧ exec i s = .next (u.setRcode .ok) := by
  obtain ⟨u, hu⟩ := writeFields_completes hinv hroom hwritten
  rw [hu, Effect.ok_bind] at h
  exact ⟨u, writeFields_appends hinv hu, exec_of_ok h⟩

/-- `SEGENCODE` of a segment that fits over written bytes appends its fields (42_segment.md R235). -/
theorem exec_segencode {s : State} {v : Byte} {m : Mode} {b : Band} {es : List Byte} (hm : s.segMode = some m)
    (hv : bandOf v.toNat = some b) (hes : s.elements = .ok es) (hinv : s.CursorInv)
    (hroom : s.count + (4 + lengthBits m b + dataBits m s.segLen) ≤ s.capacity)
    (hwritten : s.touchesWritten (4 + lengthBits m b + dataBits m s.segLen)) :
    ∃ u, Appends s u (fieldsBits (segmentFields m b s.segLen es)) ∧ exec (.segencode v) s = .next (u.setRcode .ok) := by
  have hlen := segmentFields_length m b (elements_ok hes).1
  exact exec_writeFields (segencode_eq hm hv hes hroom) hinv (hlen ▸ hroom) (hlen ▸ hwritten)

/-- What an append that ends a command comes to, with the next state written out. -/
theorem Appends.exists_exec_eq {i : Instr} {s u : State} {bits : List Bool} (h : Appends s u bits)
    (hexec : exec i s = .next (u.setRcode .ok)) :
    ∃ buf cur rem, exec i s = .next { s with buf := buf, bsCur := cur, bsRem := rem, rcode := .ok } ∧
      8 * cur + (8 - rem) = s.count + bits.length ∧
      (∀ j x, bits[j]? = some x → streamBit buf (s.count + j) = (streamBit s.buf (s.count + j)).map (· || x)) ∧
      ∀ p, p < s.count ∨ s.count + bits.length ≤ p → streamBit buf p = streamBit s.buf p := by
  rw [h.frame] at hexec
  exact ⟨u.buf, u.bsCur, u.bsRem, hexec, h.count, h.bit, h.other⟩

/-- Settles O46: past its checks `SEGENCODE` is one sequence of fields, which the appending laws follow bit by bit. -/
theorem segencodeAppendsSegment : Obligations.SegencodeAppendsSegment := by
  intro s v _
  refine ⟨fun h => exec_of_fatal (segencode_no_segment h v), fun h hv => ?_, fun h hlo hhi => ?_⟩
  · obtain ⟨m, hm⟩ := Option.ne_none_iff_exists'.1 h
    exact exec_of_fatal (segencode_invalid_version hm (bandOf_eq_none hv))
  · obtain ⟨m, hm⟩ := Option.ne_none_iff_exists'.1 h
    obtain ⟨b, hb⟩ := exists_bandOf hlo hhi
    refine ⟨m, b, hm, hb, fun hfull => exec_of_fatal (segencode_full hm hb hfull), ?_⟩
    intro es bits hinv hlen hread hbits hroom hwritten
    rw [← segmentFields_bits] at hbits
    have hbitsLen : bits.length = 4 + lengthBits m b + dataBits m s.segLen := hbits ▸ segmentFields_length m b hlen
    rw [hbitsLen] at hroom hwritten
    obtain ⟨u, happ, hexec⟩ := exec_segencode hm hb (elements_of hlen hread) hinv hroom hwritten
    exact ⟨hbitsLen, (hbits ▸ happ).exists_exec_eq hexec⟩

/-- Settles O47: past its checks `SEGPAYLOAD` is the sequence of the payload fields. -/
theorem segpayloadAppendsPayload : Obligations.SegpayloadAppendsPayload := by
  intro s _
  refine ⟨fun h => exec_of_fatal (segpayload_no_segment h), fun m hm =>
    ⟨fun hfull => exec_of_fatal (segpayload_full hm hfull), ?_⟩⟩
  rintro es _ hinv hlen hread rfl hroom hwritten
  have hbitsLen : (fieldsBits (payloadFields m es)).length = dataBits m s.segLen := by
    rw [fieldsBits_length, payloadFields_widths, hlen]
  have hpayload := segpayload_eq hm (elements_of hlen hread) (hbitsLen ▸ hroom)
  obtain ⟨u, happ, hexec⟩ := exec_writeFields (i := .segpayload) hpayload hinv hroom hwritten
  exact ⟨hbitsLen, happ.exists_exec_eq hexec⟩

/-! ## The fields of a payload -/

theorem numericFields_lt (es : List Byte) (h : ∀ e ∈ es, e.toNat ≤ 9) : ∀ f ∈ numericFields es, f.2 < 2 ^ f.1 := by
  induction es using numericFields.induct with
  | case1 d₀ d₁ d₂ ds ih =>
    simp only [List.forall_mem_cons] at h
    obtain ⟨h₀, h₁, h₂, hds⟩ := h
    exact List.forall_mem_cons.2 ⟨by show _ < 1024; omega, ih hds⟩
  | case2 d₀ d₁ =>
    simp only [List.forall_mem_cons] at h
    simp [numericFields]
    omega
  | case3 d₀ =>
    simp only [List.forall_mem_cons] at h
    simp [numericFields]
    omega
  | case4 => nofun

theorem alnumFields_lt (es : List Byte) (h : ∀ e ∈ es, e.toNat ≤ 44) : ∀ f ∈ alnumFields es, f.2 < 2 ^ f.1 := by
  induction es using alnumFields.induct with
  | case1 c₀ c₁ cs ih =>
    simp only [List.forall_mem_cons] at h
    obtain ⟨h₀, h₁, hcs⟩ := h
    exact List.forall_mem_cons.2 ⟨by show _ < 2048; omega, ih hcs⟩
  | case2 c₀ =>
    simp only [List.forall_mem_cons] at h
    simp [alnumFields]
    omega
  | case3 => nofun

theorem byteFields_lt (es : List Byte) : ∀ f ∈ byteFields es, f.2 < 2 ^ f.1 := by
  intro f hf
  obtain ⟨e, -, rfl⟩ := List.mem_map.1 hf
  exact e.isLt

/-- Settles O48: the tags and the fields by their equations, the bound of each value by the elements' ranges, and the
sum of the widths for every segment. -/
theorem payloadFieldsAndTags : Obligations.PayloadFieldsAndTags := by
  refine ⟨⟨rfl, rfl, rfl⟩, ⟨rfl, fun _ => rfl, fun _ _ => rfl, fun _ _ _ _ => rfl⟩,
    ⟨rfl, fun _ => rfl, fun _ _ _ => rfl⟩, fun _ => rfl, fun m es hnum halnum => ⟨?_, payloadFields_widths m es⟩⟩
  cases m with
  | numeric => exact numericFields_lt es (hnum rfl)
  | alnum => exact alnumFields_lt es (halnum rfl)
  | byte => exact byteFields_lt es

/-! ## The same segment in another stream, and in a stream of its size -/

theorem elements_congr {s t : State} (hlen : s.segLen = t.segLen) (h : ∀ i < s.segLen, s.seg.read i = t.seg.read i)
    {es : List Byte} (hes : s.elements = .ok es) : t.elements = .ok es := by
  obtain ⟨hl, hread⟩ := elements_ok hes
  exact elements_of (hl.trans hlen) fun i hi => by rw [← h i (hlen ▸ hi), hread i (hlen ▸ hi)]

theorem isSome_read_of_streamBit {m : Memory} {p : Nat} {x : Bool} (h : streamBit m p = some x) :
    (m.read (p / 8)).isSome := by
  obtain ⟨b, hb, -⟩ := Option.map_eq_some_iff.1 h
  rw [hb]
  rfl

theorem Appends.bit_of_zero {s t : State} {bits : List Bool} (h : Appends s t bits) {j : Nat} (hj : j < bits.length)
    (hzero : streamBit s.buf (s.count + j) = some false) : streamBit t.buf (s.count + j) = some bits[j] := by
  rw [h.bit j _ (List.getElem?_eq_getElem hj), hzero, Option.map_some, Bool.false_or]

/-- The same bits appended at the same `count()` of two streams that hold 0 there are the same in both. -/
theorem Appends.streamBit_eq {s₁ s₂ t₁ t₂ : State} {bits : List Bool} (h₁ : Appends s₁ t₁ bits)
    (h₂ : Appends s₂ t₂ bits) (hcount : s₁.count = s₂.count) {p : Nat} (hp : s₁.count ≤ p)
    (hzero₁ : streamBit s₁.buf p = some false) (hzero₂ : streamBit s₂.buf p = some false) :
    streamBit t₁.buf p = streamBit t₂.buf p := by
  obtain ⟨j, rfl⟩ := Nat.exists_eq_add_of_le hp
  rcases Nat.lt_or_ge j bits.length with hj | hj
  · rw [h₁.bit_of_zero hj hzero₁, hcount, h₂.bit_of_zero hj (hcount ▸ hzero₂)]
  · rw [h₁.other _ (.inr (by omega)), h₂.other _ (.inr (by omega)), hzero₁, hzero₂]

/-- Settles O50: both states append the same fields. -/
theorem encodingIsReproducible : Obligations.EncodingIsReproducible := by
  intro s₁ s₂ t₁ v _ hf₂ hinv₁ hinv₂ hmode hlen hseg hcount hcap hzero h hrun
  have hcapacity : s₁.capacity = s₂.capacity := congrArg (8 * ·) hcap
  obtain hok | ⟨c, -, rfl⟩ := exec_next h
  swap
  · cases hrun
  obtain ⟨m, b, es, u₁, hm, hb, hes, hroom, hu₁, rfl⟩ := segencode_fields hok
  have happ₁ := writeFields_appends hinv₁ hu₁
  have hwritten : s₂.touchesWritten (4 + lengthBits m b + dataBits m s₁.segLen) := fun j hj =>
    isSome_read_of_streamBit (hzero (s₂.count + j) (by omega) (by omega)).2
  obtain ⟨u₂, happ₂, hexec⟩ := exec_segencode (hmode ▸ hm) hb (elements_congr hlen hseg hes) hinv₂
    (by rw [← hcount, ← hlen, ← hcapacity]; exact hroom) (hlen ▸ hwritten)
  rw [← hlen] at happ₂
  refine ⟨u₂.setRcode .ok, hexec, ?_, ?_, fun p hp hp' => ?_, fun p hp hp' => ?_⟩
  · rw [happ₂.frame]
    exact hf₂
  · exact happ₁.count.trans (hcount ▸ happ₂.count.symm)
  · exact happ₁.streamBit_eq happ₂ hcount hp (hzero p hp hp').1 (hzero p hp hp').2
  · have hbeyond : s₁.count + (fieldsBits (segmentFields m b s₁.segLen es)).length ≤ p := happ₁.count ▸ hp
    exact (happ₁.other p (.inr hbeyond)).trans (hzero p (by omega) hp').1

/-- The stream that `BSNEW` leaves: empty, of that many zero bytes (40_bitstream.md R140, R142). -/
theorem bsnew_stream {p : Params} {s t : State} (h : bsnew p s = .ok t) :
    t.CursorInv ∧ t.count = 0 ∧ s.operand ≤ t.capacity ∧ t.touchesWritten s.operand := by
  obtain ⟨-, rfl⟩ := bsnew_ok h
  have hbytes : bytesFor s.operand = (s.operand + 7) / 8 := bytesFor_eq s.operand
  refine ⟨⟨(by norm_num : 1 ≤ 8), le_rfl, Nat.zero_le _, fun _ => rfl⟩, rfl, ?_, fun j hj => ?_⟩
  · show s.operand ≤ 8 * bytesFor s.operand
    omega
  · show ((s.buf.fillZero (bytesFor s.operand)).read ((0 + j) / 8)).isSome
    rw [Memory.read_fillZero, if_pos (by omega)]
    rfl

theorem bsnew_keeps_segment {p : Params} {s t : State} (h : bsnew p s = .ok t) :
    t.fatal = s.fatal ∧ t.segMode = s.segMode ∧ t.segLen = s.segLen ∧ t.seg = s.seg := by
  obtain ⟨-, rfl⟩ := bsnew_ok h
  exact ⟨rfl, rfl, rfl, rfl⟩

theorem Appends.keeps_segment {s t : State} {bits : List Bool} (h : Appends s t bits) :
    t.fatal = s.fatal ∧ t.segMode = s.segMode ∧ t.segLen = s.segLen ∧ t.seg = s.seg := by
  rw [h.frame]
  exact ⟨rfl, rfl, rfl, rfl⟩

/-- Settles O51: the new stream is empty and has room for exactly the bits of the segment, over zeros. -/
theorem sizedStreamTakesSegment : Obligations.SizedStreamTakesSegment := by
  intro p s v m b hf hm hb hwritten hsize hfits
  obtain ⟨t, hnew⟩ : ∃ t, bsnew p s = .ok t := ⟨_, bsnew_fits (by rw [bytesFor_eq]; exact hfits)⟩
  obtain ⟨hinv, hcount, hroom, htouch⟩ := bsnew_stream hnew
  obtain ⟨hfatal, hmode, hlen, hseg⟩ := bsnew_keeps_segment hnew
  rw [State.operand, hsize, ← hlen] at hroom htouch
  obtain ⟨es, hes⟩ := elements_of_written (s := t) (by rwa [hlen, hseg])
  obtain ⟨u, happ, hexec⟩ := exec_segencode (hmode.trans hm) hb hes hinv (by omega) htouch
  obtain ⟨hfatal', hmode', hlen', hseg'⟩ := happ.keeps_segment
  have hbits := segmentFields_length m b (elements_ok hes).1
  refine ⟨t, u.setRcode .ok, hnew, hexec, hfatal'.trans (hfatal.trans hf), rfl, ?_, hmode'.trans hmode,
    hlen'.trans hlen, fun i => congrArg (Memory.read · i) (hseg'.trans hseg)⟩
  calc u.count = t.count + (4 + lengthBits m b + dataBits m t.segLen) := hbits ▸ happ.count
    _ = s.arg.toNat := by rw [hcount, hlen, hsize, Nat.zero_add]

end Sys2Proof.Machine

/-! ## The halt: how it begins and how it ends -/

namespace Sys2Proof.Machine

/-- The two accesses in which the reset input is asserted (70_reset_and_hazards.md R300, R301). -/
def HostAccess.TakesReset (e : HostAccess) : Prop := e = .reset ∨ ∃ w, e = .resetDuring w

/-- `FATAL`, `FCAUSE` and `FCMD` are as before. -/
def State.SameHalt (s t : State) : Prop := t.fatal = s.fatal ∧ t.fcause = s.fcause ∧ t.fcmd = s.fcmd

theorem State.SameHalt.refl (s : State) : s.SameHalt s := ⟨rfl, rfl, rfl⟩

theorem writeCell_sameHalt (p : Params) (sp : Space) (a : Nat) (v : Byte) (s : State) :
    s.SameHalt (writeCell p sp a v s) := by
  rw [writeCell_frame]
  exact .refl s

/-- The cell that a reset interrupts is none of the fault registers, so they have their reset values. -/
theorem restartDuring_sameHalt (p : Params) (w : HostWrite) (s : State) : s.restart.SameHalt (restartDuring p w s) := by
  cases w with
  | cell sp a _ => exact writeCell_sameHalt p sp a _ s.restart
  | reg k _ =>
    unfold restartDuring
    dsimp only
    split_ifs
    · exact .refl s.restart
    · exact .refl s.restart

/-- On a halted core the command is ignored, and no other register write reaches the fault registers. -/
theorem writeReg_sameHalt {k : Nat} {v : RegWord} {s t : State} (hf : s.fatal = true) (h : writeReg k v s = .next t) :
    s.SameHalt t := by
  unfold writeReg at h
  split_ifs at h
  · rw [runCommand_halted hf] at h
    cases h; exact .refl s
  · cases h; exact .refl s
  · cases h; exact .refl s

/-- An access that takes a reset leaves the fault registers as `restart` does. -/
theorem perform_sameHalt_restart {p : Params} {e : HostAccess} {s t : State} (he : e.TakesReset)
    (h : perform p e s = .next t) : s.restart.SameHalt t := by
  obtain rfl | ⟨w, rfl⟩ := he
  · cases h; exact .refl s.restart
  · cases h; exact restartDuring_sameHalt p w s

/-- Every other access leaves the fault registers of a halted core. -/
theorem perform_sameHalt {p : Params} {e : HostAccess} {s t : State} (hf : s.fatal = true) (he : ¬ e.TakesReset)
    (h : perform p e s = .next t) : s.SameHalt t := by
  match e with
  | .write (.reg k v) => exact writeReg_sameHalt hf h
  | .write (.cell sp a v) => cases h; exact writeCell_sameHalt p sp a v s
  | .readReg k => cases h; exact .refl s
  | .readCell sp a => cases h; exact .refl s
  | .reset => exact absurd (.inl rfl) he
  | .resetDuring w => exact absurd (.inr ⟨w, rfl⟩) he

/-- Settles O7: the core idles, or its first access takes a reset, or it takes none. -/
theorem haltEndsOnlyAtReset : Obligations.HaltEndsOnlyAtReset := by
  intro s t hf hs
  obtain ⟨hp, hstep⟩ | ⟨e, rest, hp, hstep⟩ := step_cases s <;> rw [hstep] at hs
  · cases hs
    simp [hp, hf]
  · simp only [hp, List.head?_cons, Option.some.injEq]
    refine ⟨fun he => perform_sameHalt_restart he hs, fun he => ?_⟩
    obtain ⟨hfatal, hcause, hcmd⟩ := perform_sameHalt (s := s.setPending rest) hf he hs
    exact ⟨hfatal.trans hf, hcause, hcmd⟩

/-- A command that leaves a running core halted took the fault entry: no completing command writes `FATAL`. -/
theorem exec_halts {i : Instr} {s t : State} (hf : s.fatal = false) (h : exec i s = .next t) (ht : t.fatal = true) :
    ∃ c, t = s.takeFatal c (encode i) := by
  obtain hok | ⟨c, -, rfl⟩ := exec_next h
  · obtain ⟨-, -, -, hfatal, -⟩ := effectOf_ok_frame hok
    rw [hfatal, hf] at ht
    exact nomatch ht
  · exact ⟨c, rfl⟩

/-- A word that leaves a running core halted took the fault entry, with that word in `FCMD`: a word that decodes is the
encoding of its command. -/
theorem runCommand_halts {w : CommandWord} {s t : State} (hf : s.fatal = false) (h : runCommand w s = .next t)
    (ht : t.fatal = true) : ∃ c, t = s.takeFatal c w := by
  obtain ⟨hhalted, -⟩ | ⟨-, why, -, hill⟩ | ⟨-, i, hd, hexec⟩ := runCommand_cases w s
  · exact nomatch hf.symm.trans hhalted
  · rw [hill] at h
    cases h; exact ⟨.illegalCommand, rfl⟩
  · rw [hexec] at h
    rw [(decodeInvertsEncode w i).1 hd]
    exact exec_halts hf h ht

/-- Settles O18: the delivered word is what the step runs, and the fault entry is R274's three writes. -/
theorem fatalErrorsArePrecise : Obligations.FatalErrorsArePrecise := by
  intro s t w hf hs ht
  rw [step_deliver] at hs
  exact runCommand_halts hf hs ht

/-! ## The idle core -/

/-- Settles O11: of the two cases of a step, the one without an access. -/
theorem idleCoreHoldsState : Obligations.IdleCoreHoldsState := by
  intro s hp
  obtain ⟨-, hstep⟩ | ⟨e, rest, hcons, -⟩ := step_cases s
  · exact hstep
  · exact nomatch hp.symm.trans hcons

end Sys2Proof.Machine

/-! ## The encoders do not read the text or `ARG` -/

namespace Sys2Proof.Machine

/-- The state with other contents of `TXT` and another value in `ARG`. -/
def State.withTextArg (txt : Memory) (arg : RegWord) (s : State) : State := { s with txt := txt, arg := arg }

theorem withTextArg_streamBlind (txt : Memory) (arg : RegWord) : StreamBlind (State.withTextArg txt arg) where
  bsLen _ := rfl
  bsCur _ := rfl
  bsRem _ := rfl
  buf _ := rfl
  segMode _ := rfl
  segLen _ := rfl
  seg _ := rfl
  setBuf _ _ := rfl
  setCursor _ _ _ := rfl

theorem encoder_of_op {i : Instr} (h : i.op ∈ [Op.segencode, .segpayload]) :
    (∃ v, i = .segencode v) ∨ i = .segpayload := by
  cases i with
  | segencode v => exact .inl ⟨v, rfl⟩
  | segpayload => exact .inr rfl
  | _ => exact absurd h (by simp [Instr.op])

/-- The encoders read the segment and the stream alone, and write the stream and `RCODE` (42_segment.md R235, R236). -/
theorem effectOf_encoder_withTextArg {i : Instr} (hi : i.op ∈ [Op.segencode, .segpayload]) (txt : Memory)
    (arg : RegWord) (s : State) :
    effectOf i (s.withTextArg txt arg) = (effectOf i s).map (State.withTextArg txt arg) := by
  have hf := withTextArg_streamBlind txt arg
  obtain ⟨v, rfl⟩ | rfl := encoder_of_op hi
  · exact hf.segencode (fun _ => rfl) v s
  · exact hf.segpayload (fun _ => rfl) s

/-- Settles O52: by `effectOf_encoder_withTextArg` the two runs end in the same of the three ways of `conclude`, and the
fault entry keeps `TXT` and `ARG`. -/
theorem encodersDoNotReadTextOrArg : Obligations.EncodersDoNotReadTextOrArg := by
  intro i s txt arg hi
  have hrun : exec i { s with txt := txt, arg := arg } =
      conclude (encode i) (s.withTextArg txt arg) ((effectOf i s).map (State.withTextArg txt arg)) := by
    rw [← effectOf_encoder_withTextArg hi]
    exact exec_eq i _
  refine ⟨fun t ht => ?_, fun f hfault => ?_⟩
  · obtain hok | ⟨c, hc, rfl⟩ := exec_next ht
    · rw [hrun, hok]; rfl
    · rw [hrun, hc]; rfl
  · rw [exec_eq] at hfault
    rw [hrun, conclude_fault hfault]; rfl

end Sys2Proof.Machine

/-! ## Reset -/

namespace Sys2Proof.Machine

theorem step_reset {s : State} {rest : List HostAccess} (h : s.pending = .reset :: rest) :
    step s = .next (s.setPending rest).restart := by
  simp only [step, nextEvent, h, perform]

theorem step_resetDuring {s : State} {w : HostWrite} {rest : List HostAccess} (h : s.pending = .resetDuring w :: rest) :
    step s = .next (restartDuring Config.params w (s.setPending rest)) := by
  simp only [step, nextEvent, h, perform]

/-- After power-on or a step that takes a reset, only the model's own pending accesses, last answer and count of resets
can differ from `State.reset`. -/
theorem eq_reset_of_reset {t : State}
    (h : t = State.reset ∨ ∃ s : State, s.pending.head? = some .reset ∧ step s = .next t) :
    ∃ l d n, t = { State.reset with pending := l, readData := d, resetCount := n } := by
  obtain rfl | ⟨s, hhead, hs⟩ := h
  · exact ⟨_, _, _, rfl⟩
  · obtain ⟨rest, hp⟩ := List.head?_eq_some_iff.1 hhead
    rw [step_reset hp] at hs
    cases hs
    exact ⟨_, _, _, rfl⟩

/-- Settles O8: the step is `State.restart`, and `eq_reset_of_reset` reads the values off `State.reset`. -/
theorem resetSetsEveryPiece : Obligations.ResetSetsEveryPiece := by
  refine ⟨fun s rest hp => ⟨_, step_reset hp, rfl⟩, fun t ht => ?_⟩
  obtain ⟨l, d, n, rfl⟩ := eq_reset_of_reset ht
  exact ⟨rfl, rfl, rfl, rfl, rfl, rfl, rfl, rfl, rfl, rfl, rfl, fun a => ⟨rfl, rfl, rfl⟩⟩

/-! ## A reset during a host write -/

/-- What a reset leaves of the write it interrupts (70_reset_and_hazards.md R301, log 7): a free value in `ARG`, or in
the cell of `BUF` or `TXT` that was being written, or nothing. -/
theorem restartDuring_cases (p : Params) (w : HostWrite) (s : State) :
    (∃ v, w = .reg 1 v ∧ restartDuring p w s = s.restart.setArg (Config.interruptedArg (s.resetCount + 1))) ∨
    (∃ a v, w = .cell .buf a v ∧ a < p.bufMax ∧
      restartDuring p w s = s.restart.setBuf [(a, Config.interruptedByte (s.resetCount + 1))]) ∨
    (∃ a v, w = .cell .txt a v ∧ a < p.txtMax ∧
      restartDuring p w s = s.restart.setTxt [(a, Config.interruptedByte (s.resetCount + 1))]) ∨
    ((∀ v, w ≠ .reg 1 v) ∧ (∀ a v, w = .cell .buf a v → p.bufMax ≤ a) ∧
      (∀ a v, w = .cell .txt a v → p.txtMax ≤ a) ∧ restartDuring p w s = s.restart) := by
  match w with
  | .reg k v =>
    by_cases hk : k = 1
    · exact .inl ⟨v, by rw [hk], if_pos hk⟩
    · exact .inr (.inr (.inr ⟨fun v' h => hk (HostWrite.reg.inj h).1, nofun, nofun, if_neg hk⟩))
  | .cell .buf a v =>
    by_cases ha : a < p.bufMax
    · exact .inr (.inl ⟨a, v, rfl, ha, writeCell_buf ha _ _⟩)
    · exact .inr (.inr (.inr ⟨nofun, by rintro _ _ ⟨⟩; exact Nat.not_lt.1 ha, nofun, if_neg ha⟩))
  | .cell .txt a v =>
    by_cases ha : a < p.txtMax
    · exact .inr (.inr (.inl ⟨a, v, rfl, ha, writeCell_txt ha _ _⟩))
    · exact .inr (.inr (.inr ⟨nofun, nofun, by rintro _ _ ⟨⟩; exact Nat.not_lt.1 ha, if_neg ha⟩))
  | .cell .seg a v => exact .inr (.inr (.inr ⟨nofun, nofun, nofun, rfl⟩))

/-- Settles O9: in each case of `restartDuring_cases` the registers are those of `State.restart` but for `ARG`, and a
space holds at most the one cell. -/
theorem interruptedWriteTakesAnyValue : Obligations.InterruptedWriteTakesAnyValue := by
  intro s w rest hp
  refine ⟨_, step_resetDuring hp, ?_⟩
  obtain ⟨v, rfl, ht⟩ | ⟨b, v, rfl, hb, ht⟩ | ⟨b, v, rfl, hb, ht⟩ | ⟨harg, hbuf, htxt, ht⟩ :=
    restartDuring_cases Config.params w (s.setPending rest)
  · simp [ht]
  · suffices h : ∀ a, (b = a → Config.params.bufMax ≤ a) → b ≠ a by simpa [ht, Memory.read_cons]
    rintro a h rfl
    exact Nat.not_le.2 hb (h rfl)
  · suffices h : ∀ a, (b = a → Config.params.txtMax ≤ a) → b ≠ a by simpa [ht, Memory.read_cons]
    rintro a h rfl
    exact Nat.not_le.2 hb (h rfl)
  · simpa [ht, harg] using And.intro hbuf htxt

end Sys2Proof.Machine

/-! ## Stops over bytes never written -/

namespace Sys2Proof.Machine

theorem exec_of_unknown {i : Instr} {s : State} {f : Fault} (h : effectOf i s = .error (.unknown f)) :
    exec i s = .fault f := by
  rw [exec_eq, h, conclude_unknown]

/-- A `WRITE` that fits can succeed only over written bytes, and stops only over one that was never written. -/
theorem write_unwritten {n : Nat} {s : State} (hn : 1 ≤ n ∧ n ≤ 8) (hinv : s.CursorInv)
    (hroom : s.count + n ≤ s.capacity) (hunwritten : ¬ s.touchesWritten n) (v : Byte) :
    write n v s = .error (.unknown .unwrittenBuf) := by
  cases h : write n v s with
  | ok t => exact absurd (write_touched hn hinv h) hunwritten
  | error e =>
    obtain ⟨hfull, -⟩ | ⟨-, rfl, -⟩ := write_error h
    · exact absurd hroom (Nat.not_le.2 hfull)
    · rfl

/-- Settles O29. -/
theorem unwrittenStreamByteStops : Obligations.UnwrittenStreamByteStops := by
  intro n i v s hi hinv hroom hunwritten
  obtain ⟨hpos, hle, heff⟩ := writeCommands_cases hi
  apply exec_of_unknown
  rw [heff, writeCommand, write_unwritten ⟨hpos, hle⟩ hinv hroom hunwritten, Effect.error_bind]

/-- As `write_unwritten`, for a sequence of fields: the byte may lie anywhere under its bits. -/
theorem writeFields_unwritten {fs : List (Nat × Nat)} {s : State} (hinv : s.CursorInv)
    (hroom : s.count + (fieldsBits fs).length ≤ s.capacity) (hunwritten : ¬ s.touchesWritten (fieldsBits fs).length) :
    writeFields fs s = .error (.unknown .unwrittenBuf) := by
  cases h : writeFields fs s with
  | ok t => exact absurd (writeFields_touched hinv h) hunwritten
  | error e => rw [writeFields_error hinv hroom h]

/-- A command that comes to a sequence of fields that fits stops over a byte that was never written. -/
theorem exec_writeFields_unwritten {i : Instr} {s : State} {fs : List (Nat × Nat)}
    (h : effectOf i s = (writeFields fs s >>= fun u => .ok (u.setRcode .ok))) (hinv : s.CursorInv)
    (hroom : s.count + (fieldsBits fs).length ≤ s.capacity) (hunwritten : ¬ s.touchesWritten (fieldsBits fs).length) :
    exec i s = .fault .unwrittenBuf := by
  rw [writeFields_unwritten hinv hroom hunwritten, Effect.error_bind] at h
  exact exec_of_unknown h

/-- Settles O49: the segment is readable, so each encoder comes to a sequence of fields with as many bits as the
statement counts. -/
theorem unwrittenEncodeTargetStops : Obligations.UnwrittenEncodeTargetStops := by
  intro s v m b hinv hm hwritten
  obtain ⟨es, hes⟩ := elements_of_written hwritten
  obtain ⟨hlen, -⟩ := elements_ok hes
  refine ⟨fun hb hroom hunwritten => ?_, fun hroom hunwritten => ?_⟩
  · have hbits := segmentFields_length m b hlen
    exact exec_writeFields_unwritten (segencode_eq hm hb hes hroom) hinv (hbits ▸ hroom) (hbits ▸ hunwritten)
  · have hbits : (fieldsBits (payloadFields m es)).length = dataBits m s.segLen := by
      rw [fieldsBits_length, payloadFields_widths, hlen]
    exact exec_writeFields_unwritten (i := .segpayload) (segpayload_eq hm hes hroom) hinv (hbits ▸ hroom)
      (hbits ▸ hunwritten)

/-- A text with a byte that was never written cannot be read. -/
theorem text_unwritten {s : State} {n j : Nat} (hj : j < n) (h : s.txt.read j = none) :
    s.text n = .error (.unknown .unwrittenTxt) := by
  cases ht : s.text n with
  | ok text =>
    obtain ⟨hlen, hread⟩ := text_ok ht
    have hend : text.length ≤ j := List.getElem?_eq_none_iff.1 ((hread j hj).symm.trans h)
    omega
  | error e => rw [(text_error ht).1]

theorem segtext_unwritten {p : Params} {s : State} {j : Nat} (htxt : s.operand ≤ p.txtMax) (hj : j < s.operand)
    (h : s.txt.read j = none) : segtext p s = .error (.unknown .unwrittenTxt) := by
  simp only [segtext, if_neg (Nat.not_lt.2 htxt), text_unwritten hj h, Effect.error_bind]

theorem segalnum_unwritten {p : Params} {s : State} (htxt : s.operand ≤ p.txtMax) (hseg : s.operand ≤ p.segMax)
    (h : scanText s.txt s.operand 0 = .error (.unknown .unwrittenTxt)) :
    segalnum p s = .error (.unknown .unwrittenTxt) := by
  simp only [segalnum, if_neg (Nat.not_lt.2 htxt), if_neg (Nat.not_lt.2 hseg), h]

/-- Settles O39: `SEGTEXT` reads the whole text, and the scan of `SEGALNUM` reaches byte `j` past valid characters. -/
theorem unwrittenTextStops : Obligations.UnwrittenTextStops := by
  intro s j htxt hj hread
  refine ⟨exec_of_unknown (segtext_unwritten htxt hj hread), fun hseg hvalid => ?_⟩
  have hscan := (scanText_first (k := s.operand) (Nat.zero_le j) (by simpa [State.operand] using hj)
    fun i _ => hvalid i).2 hread
  exact exec_of_unknown (segalnum_unwritten htxt hseg hscan)

end Sys2Proof.Machine
